-- ==== Sys2Proof/Word.lean ====
section
/-! DEFINITION. The word types of the Hydrazen v2 Execution Engine.
Bit vectors stand only for what the spec treats as bits: an 8-bit cell or address, a 16-bit instruction word, a 4-bit
field of it. Every value is unsigned (00_scope.md R11). -/

namespace Sys2Proof

/-- An 8-bit unsigned value: a register, the program counter, the segment value, a byte of program memory, an immediate
or an address (00_scope.md R11; 10_state.md R13, R18, R29). -/
abbrev Byte := BitVec 8

/-- A 16-bit instruction word (30_encoding.md R53). -/
abbrev Word := BitVec 16

/-- A 4-bit field of a word; as a register field, the index 0 to 15 of a register, every value legal (30_encoding.md R65). -/
abbrev RegIdx := BitVec 4

end Sys2Proof
end

