-- ==== Sys2Proof/Syntax.lean ====
section
/-! DEFINITION. The instructions of Hydrazen v2, one constructor per row of spec/opcode_table.json, in the order of the
opcode (30_encoding.md R68). An operand is a 4-bit register field (R65), an 8-bit immediate (R66) or an 8-bit absolute
address (R67). Bits the decoder ignores (R69) are no part of an instruction: two words that differ only there are the same
instruction (R71). -/

namespace Sys2Proof

inductive Instr where
  /-- NOP, no operation (41_system.md R96). -/
  | nop
  /-- HLT, halt (41_system.md R97). -/
  | hlt
  /-- ADD a, b, c: x[c] is x[a] plus x[b] (42_alu.md R99). -/
  | add (a b c : RegIdx)
  /-- SUB a, b, c: x[c] is x[a] minus x[b] (42_alu.md R100). -/
  | sub (a b c : RegIdx)
  /-- AND a, b, c (42_alu.md R101). -/
  | and (a b c : RegIdx)
  /-- OR a, b, c (42_alu.md R102). -/
  | or (a b c : RegIdx)
  /-- XOR a, b, c (42_alu.md R103). -/
  | xor (a b c : RegIdx)
  /-- NOR a, b, c (42_alu.md R104). -/
  | nor (a b c : RegIdx)
  /-- JMP addr, unconditional absolute jump (43_control.md R109). -/
  | jmp (addr : Byte)
  /-- RSH a, c: x[c] is x[a] shifted right by one (42_alu.md R105). -/
  | rsh (a c : RegIdx)
  /-- LSH a, c: x[c] is x[a] shifted left by one (42_alu.md R106). -/
  | lsh (a c : RegIdx)
  /-- LDI a, imm: x[a] is imm (44_immediate.md R113). -/
  | ldi (a : RegIdx) (imm : Byte)
  /-- ADI a, imm: x[a] is x[a] plus imm (44_immediate.md R114). -/
  | adi (a : RegIdx) (imm : Byte)
  /-- BRZ addr, absolute branch when Z = 1 (43_control.md R110). -/
  | brz (addr : Byte)
  /-- PLT a, b: toggle a framebuffer cell (45_output.md R115). -/
  | plt (a b : RegIdx)
  /-- SEG a: the segment value is x[a] (45_output.md R116). -/
  | seg (a : RegIdx)
deriving DecidableEq, Repr

end Sys2Proof
end

