-- ==== Sys2Proof/WellFormed.lean ====
section
/-! DEFINITION. Well-formedness of operands AS WRITTEN, before they are packed into fields.
Every term of Instr is well-formed, because the types of its operands admit exactly what the fields of the encoding admit
(30_encoding.md R65 to R67: all sixteen indices, all 256 immediates and addresses). What can be ill-formed is an
instruction given by an opcode and operands that are plain numbers, as source text gives it: too many or too few
operands, a register where a value belongs, a register index above 15, a value above 255. Those are the checks of
30_encoding.md R80, each with a name of its own. -/

namespace Sys2Proof

/-- The sixteen opcodes (30_encoding.md R68). -/
inductive Opcode where
  | nop | hlt | add | sub | and | or | xor | nor | jmp | rsh | lsh | ldi | adi | brz | plt | seg
deriving DecidableEq, Repr

/-- The opcode of an instruction. -/
def Instr.opcode : Instr → Opcode
  | .nop => .nop
  | .hlt => .hlt
  | .add _ _ _ => .add
  | .sub _ _ _ => .sub
  | .and _ _ _ => .and
  | .or _ _ _ => .or
  | .xor _ _ _ => .xor
  | .nor _ _ _ => .nor
  | .jmp _ => .jmp
  | .rsh _ _ => .rsh
  | .lsh _ _ => .lsh
  | .ldi _ _ => .ldi
  | .adi _ _ => .adi
  | .brz _ => .brz
  | .plt _ _ => .plt
  | .seg _ => .seg

/-- The two kinds of operand a mnemonic takes (30_encoding.md R76): a register, or a value (an immediate or address). -/
inductive OperandKind where
  | reg | value
deriving DecidableEq, Repr

/-- An operand as a number: register Rn, or the value n (a literal, or the address a label resolved to). -/
inductive Operand where
  | reg (n : Nat)
  | value (n : Nat)
deriving DecidableEq, Repr

/-- Why an opcode with operands is no instruction (30_encoding.md R80). -/
inductive IllFormed where
  /-- A wrong operand count for the mnemonic. -/
  | operandCount
  /-- An operand of the wrong kind. -/
  | operandKind
  /-- A register index outside 0..15. -/
  | registerRange
  /-- An immediate or address value greater than 255; it is refused, never truncated. -/
  | valueWidth
deriving DecidableEq, Repr

/-- The kinds of the operands of each mnemonic, in source order (30_encoding.md R76). -/
def Opcode.kinds : Opcode → List OperandKind
  | .nop => []
  | .hlt => []
  | .add => [.reg, .reg, .reg]
  | .sub => [.reg, .reg, .reg]
  | .and => [.reg, .reg, .reg]
  | .or => [.reg, .reg, .reg]
  | .xor => [.reg, .reg, .reg]
  | .nor => [.reg, .reg, .reg]
  | .jmp => [.value]
  | .rsh => [.reg, .reg]
  | .lsh => [.reg, .reg]
  | .ldi => [.reg, .value]
  | .adi => [.reg, .value]
  | .brz => [.value]
  | .plt => [.reg, .reg]
  | .seg => [.reg]

/-- The register field of an operand (30_encoding.md R65, R75). -/
def Operand.regField : Operand → Except IllFormed RegIdx
  | .reg n => if n < 16 then .ok (BitVec.ofNat 4 n) else .error .registerRange
  | .value _ => .error .operandKind

/-- The 8-bit field of an operand (30_encoding.md R66, R67, R80). -/
def Operand.valueField : Operand → Except IllFormed Byte
  | .reg _ => .error .operandKind
  | .value n => if n < 256 then .ok (BitVec.ofNat 8 n) else .error .valueWidth

/-- No operand (formats N). -/
def Operand.asNone (i : Instr) : List Operand → Except IllFormed Instr
  | [] => .ok i
  | _ => .error .operandCount

/-- One register (format R). -/
def Operand.asReg (mk : RegIdx → Instr) : List Operand → Except IllFormed Instr
  | [p] =>
    match p.regField with
    | .ok a => .ok (mk a)
    | .error e => .error e
  | _ => .error .operandCount

/-- One value (format A). -/
def Operand.asValue (mk : Byte → Instr) : List Operand → Except IllFormed Instr
  | [p] =>
    match p.valueField with
    | .ok v => .ok (mk v)
    | .error e => .error e
  | _ => .error .operandCount

/-- Two registers (formats RXR and RR). -/
def Operand.asRegReg (mk : RegIdx → RegIdx → Instr) : List Operand → Except IllFormed Instr
  | [p, q] =>
    match p.regField, q.regField with
    | .ok a, .ok b => .ok (mk a b)
    | .error e, _ => .error e
    | .ok _, .error e => .error e
  | _ => .error .operandCount

/-- A register and a value (format RI). -/
def Operand.asRegValue (mk : RegIdx → Byte → Instr) : List Operand → Except IllFormed Instr
  | [p, q] =>
    match p.regField, q.valueField with
    | .ok a, .ok v => .ok (mk a v)
    | .error e, _ => .error e
    | .ok _, .error e => .error e
  | _ => .error .operandCount

/-- Three registers (format RRR). -/
def Operand.asRegRegReg (mk : RegIdx → RegIdx → RegIdx → Instr) : List Operand → Except IllFormed Instr
  | [p, q, r] =>
    match p.regField, q.regField, r.regField with
    | .ok a, .ok b, .ok c => .ok (mk a b c)
    | .error e, _, _ => .error e
    | .ok _, .error e, _ => .error e
    | .ok _, .ok _, .error e => .error e
  | _ => .error .operandCount

/-- The instruction an opcode and its written operands stand for, or the named reason why there is none
(30_encoding.md R76, R80). -/
def Opcode.build : Opcode → List Operand → Except IllFormed Instr
  | .nop => Operand.asNone .nop
  | .hlt => Operand.asNone .hlt
  | .add => Operand.asRegRegReg .add
  | .sub => Operand.asRegRegReg .sub
  | .and => Operand.asRegRegReg .and
  | .or => Operand.asRegRegReg .or
  | .xor => Operand.asRegRegReg .xor
  | .nor => Operand.asRegRegReg .nor
  | .jmp => Operand.asValue .jmp
  | .rsh => Operand.asRegReg .rsh
  | .lsh => Operand.asRegReg .lsh
  | .ldi => Operand.asRegValue .ldi
  | .adi => Operand.asRegValue .adi
  | .brz => Operand.asValue .brz
  | .plt => Operand.asRegReg .plt
  | .seg => Operand.asReg .seg

/-- An opcode with its written operands is well-formed when it stands for an instruction. -/
def Opcode.wellFormed (o : Opcode) (ops : List Operand) : Bool :=
  match o.build ops with
  | .ok _ => true
  | .error _ => false

/-- The operands of an instruction as numbers, in source order (30_encoding.md R76). -/
def Instr.operands : Instr → List Operand
  | .nop => []
  | .hlt => []
  | .add a b c => [.reg a.toNat, .reg b.toNat, .reg c.toNat]
  | .sub a b c => [.reg a.toNat, .reg b.toNat, .reg c.toNat]
  | .and a b c => [.reg a.toNat, .reg b.toNat, .reg c.toNat]
  | .or a b c => [.reg a.toNat, .reg b.toNat, .reg c.toNat]
  | .xor a b c => [.reg a.toNat, .reg b.toNat, .reg c.toNat]
  | .nor a b c => [.reg a.toNat, .reg b.toNat, .reg c.toNat]
  | .jmp addr => [.value addr.toNat]
  | .rsh a c => [.reg a.toNat, .reg c.toNat]
  | .lsh a c => [.reg a.toNat, .reg c.toNat]
  | .ldi a imm => [.reg a.toNat, .value imm.toNat]
  | .adi a imm => [.reg a.toNat, .value imm.toNat]
  | .brz addr => [.value addr.toNat]
  | .plt a b => [.reg a.toNat, .reg b.toNat]
  | .seg a => [.reg a.toNat]

end Sys2Proof
end

