-- ==== Sys2Proof/Decode.lean ====
section
/-! DEFINITION. The decoder, total on all 65536 words (30_encoding.md R70, R71), and after it the encoder.
A word is two bytes, the first the more significant (30_encoding.md R54). The places of the sub-fields are the spec's own
decision (R57, D1 to D3): DEDUCED, unsafe, log 1. -/

namespace Sys2Proof

/-- The instruction word of byte 1 and byte 2: byte 1 is the more significant (30_encoding.md R54; log 2). -/
def wordOfBytes (b1 b2 : Byte) : Word := b1 ++ b2

/-- Byte 1 of a word, w[15:8]. -/
def Word.byte1 (w : Word) : Byte := w.extractLsb' 8 8

/-- Byte 2 of a word, w[7:0]. -/
def Word.byte2 (w : Word) : Byte := w.extractLsb' 0 8

/-- The opcode field, w[15:12] (30_encoding.md R55). -/
def Word.op (w : Word) : BitVec 4 := w.extractLsb' 12 4

/-- The field a, w[11:8] (30_encoding.md R57). -/
def Word.a (w : Word) : RegIdx := w.extractLsb' 8 4

/-- The field b, w[7:4] (30_encoding.md R57). -/
def Word.b (w : Word) : RegIdx := w.extractLsb' 4 4

/-- The field c, w[3:0] (30_encoding.md R57). -/
def Word.c (w : Word) : RegIdx := w.extractLsb' 0 4

/-- The field imm8, w[7:0] (30_encoding.md R57). -/
def Word.imm8 (w : Word) : Byte := w.extractLsb' 0 8

/-- The opcode map (30_encoding.md R68): each of the sixteen values 0x0 to 0xF selects exactly one instruction, with no
default. The entry at position v is the instruction of opcode v. -/
def Opcode.map : Vector Opcode 16 :=
  #v[.nop, .hlt, .add, .sub, .and, .or, .xor, .nor, .jmp, .rsh, .lsh, .ldi, .adi, .brz, .plt, .seg]

/-- The opcode an opcode field w[15:12] selects (30_encoding.md R55, R68). -/
def Opcode.ofField (f : BitVec 4) : Opcode := Opcode.map[f.toNat]'f.isLt

/-- The decoder (30_encoding.md R71; 40_engine.md R89): the opcode alone selects the instruction, each format takes its
own fields, every other bit is ignored (R58 to R64, R69). -/
def decode (w : Word) : Instr :=
  match Opcode.ofField w.op with
  | .nop => .nop
  | .hlt => .hlt
  | .add => .add w.a w.b w.c
  | .sub => .sub w.a w.b w.c
  | .and => .and w.a w.b w.c
  | .or => .or w.a w.b w.c
  | .xor => .xor w.a w.b w.c
  | .nor => .nor w.a w.b w.c
  | .jmp => .jmp w.imm8
  | .rsh => .rsh w.a w.c
  | .lsh => .lsh w.a w.c
  | .ldi => .ldi w.a w.imm8
  | .adi => .adi w.a w.imm8
  | .brz => .brz w.imm8
  | .plt => .plt w.a w.b
  | .seg => .seg w.a

/-- Why a sequence of bytes holds no instruction at its front. No pair of bytes is refused (30_encoding.md R70): the
only refusal is of a sequence too short to hold a word (R53). -/
inductive DecodeError where
  /-- There is no byte at all. -/
  | noBytes
  /-- There is one byte, half a word. -/
  | halfWord
deriving DecidableEq, Repr

/-- The instruction at the front of a byte sequence, and the bytes after it (30_encoding.md R53, R54). -/
def decodeBytes : List Byte → Except DecodeError (Instr × List Byte)
  | [] => .error .noBytes
  | [_] => .error .halfWord
  | b1 :: b2 :: rest => .ok (decode (wordOfBytes b1 b2), rest)

/-- All the instructions of a byte sequence, in order (30_encoding.md R82). -/
def decodeAll : List Byte → Except DecodeError (List Instr)
  | [] => .ok []
  | [_] => .error .halfWord
  | b1 :: b2 :: rest =>
    match decodeAll rest with
    | .ok is => .ok (decode (wordOfBytes b1 b2) :: is)
    | .error e => .error e

/-- The value of the opcode field of an opcode (30_encoding.md R68). -/
def Opcode.field : Opcode → BitVec 4
  | .nop => 0x0
  | .hlt => 0x1
  | .add => 0x2
  | .sub => 0x3
  | .and => 0x4
  | .or => 0x5
  | .xor => 0x6
  | .nor => 0x7
  | .jmp => 0x8
  | .rsh => 0x9
  | .lsh => 0xA
  | .ldi => 0xB
  | .adi => 0xC
  | .brz => 0xD
  | .plt => 0xE
  | .seg => 0xF

/-- The operand field of an instruction, w[11:0], ignored bits 0 (30_encoding.md R58 to R64, R76, R82). -/
def Instr.operandField : Instr → BitVec 12
  | .nop => 0
  | .hlt => 0
  | .add a b c => a ++ b ++ c
  | .sub a b c => a ++ b ++ c
  | .and a b c => a ++ b ++ c
  | .or a b c => a ++ b ++ c
  | .xor a b c => a ++ b ++ c
  | .nor a b c => a ++ b ++ c
  | .jmp addr => 0#4 ++ addr
  | .rsh a c => a ++ 0#4 ++ c
  | .lsh a c => a ++ 0#4 ++ c
  | .ldi a imm => a ++ imm
  | .adi a imm => a ++ imm
  | .brz addr => 0#4 ++ addr
  | .plt a b => a ++ b ++ 0#4
  | .seg a => a ++ 0#8

/-- The encoder: the word of an instruction, every ignored bit 0 (30_encoding.md R76, R82). -/
def encode (i : Instr) : Word := i.opcode.field ++ i.operandField

/-- The two bytes of an instruction as they lie in memory, byte 1 first (30_encoding.md R82). -/
def encodeBytes (i : Instr) : List Byte := [(encode i).byte1, (encode i).byte2]

/-- The bits of a word its format does not ignore (30_encoding.md R58 to R64, R69): the mask the decoder reads through. -/
def Opcode.readMask : Opcode → Word
  | .nop => 0xF000
  | .hlt => 0xF000
  | .add => 0xFFFF
  | .sub => 0xFFFF
  | .and => 0xFFFF
  | .or => 0xFFFF
  | .xor => 0xFFFF
  | .nor => 0xFFFF
  | .jmp => 0xF0FF
  | .rsh => 0xFF0F
  | .lsh => 0xFF0F
  | .ldi => 0xFFFF
  | .adi => 0xFFFF
  | .brz => 0xF0FF
  | .plt => 0xFFF0
  | .seg => 0xFF00

/-- The word whose low nbits bits are those of w and whose other bits are 0 (the table counts bit 0 as the least
significant bit of the word; an instruction is one word). -/
def tableWord (nbits w : Nat) : Word := BitVec.ofNat 16 (w % 2 ^ nbits)

/-- The instruction the decoder reads from an instruction whose bits are w: the word is laid out as memory holds it, byte
1 first, and given to decodeBytes. -/
def decodeTableWord (nbits w : Nat) : Option Instr :=
  match decodeBytes [(tableWord nbits w).byte1, (tableWord nbits w).byte2] with
  | .ok (i, _) => some i
  | .error _ => none

end Sys2Proof
end

