-- ==== Sys2Proof/Config.lean ====
section
/-! DEFINITION. The fixed sizes of the machine (00_scope.md R7) and the parameters the spec leaves to a model (00_scope.md
R8). A parameter is never given a value inside a meaning: the machine carries its parameters as plain data (log 3, log 4),
so that whatever is said of every state is said of every value of them. -/

namespace Sys2Proof

/-- Bytes of program memory, and the modulus of every address (00_scope.md R7; 20_memory.md R33). -/
abbrev Config.memSize : Nat := 256

/-- Rows and columns of the framebuffer (00_scope.md R7; 10_state.md R28). -/
abbrev Config.gridSize : Nat := 24

/-- What an address of program memory that nothing has written reads as: the default of the parameter INIT_MEM
(20_memory.md R50). DESIGN CHOICE of the spec's D7, unsafe; log 5. Another INIT_MEM is an argument of State.powerOn. -/
def Config.unlistedByte : Byte := 0

/-- The three values of the parameter ADI_FLAGS (44_immediate.md R114). -/
inductive AdiFlags where
  /-- Z from the masked result, C cleared: the spec's reading and default (D4). -/
  | masked
  /-- Z from the masked result, C the carry of the raw sum. -/
  | rawCarry
  /-- Z from the raw sum, C the carry of the raw sum. -/
  | rawBoth
deriving DecidableEq, Repr

/-- The parameters of 00_scope.md R8 that a step or a reset reads. They are fixed for a machine: no step and no host
operation writes them. -/
structure Params where
  /-- ADI_FLAGS (44_immediate.md R114; log 3). -/
  adiFlags : AdiFlags
  /-- INIT_REGS (10_state.md R17; log 4). -/
  initRegs : Vector Byte 16
deriving DecidableEq, Repr

/-- The defaults the spec states: ADI_FLAGS = MASKED and INIT_REGS all zero (00_scope.md R8). DESIGN CHOICE of the spec's
D4 and D6, unsafe: log 3, log 4. -/
def Params.standard : Params := { adiFlags := .masked, initRegs := Vector.replicate 16 0 }

end Sys2Proof
end

