-- ==== Sys2Proof/Machine/Memory.lean ====
section
/-! DEFINITION. Program memory: 256 bytes, every access modulo 256 (20_memory.md R33).
It is a list of (address, byte) in one canonical form: addresses strictly rising, each below 256, and no byte equal to
what an unlisted address reads as. So equal memories are equal lists. -/

namespace Sys2Proof.Machine

/-- Program memory as its listed bytes. -/
abbrev Memory := List Host.Cell

/-- The byte listed at an address, or what an unlisted address reads as (20_memory.md R50; log 5). -/
def Memory.lookup : Memory → Nat → Byte
  | [], _ => Config.unlistedByte
  | (k, v) :: rest, a => if k = a then v else Memory.lookup rest a

/-- MemRead(a, 1): the byte M[a mod 256], with no side effect (00_scope.md R10; 20_memory.md R33, R41). -/
def Memory.read (m : Memory) (a : Nat) : Byte := m.lookup (a % Config.memSize)

/-- The list with address a holding v and every other address as it was, in canonical form. -/
def Memory.put : Memory → Nat → Byte → Memory
  | [], a, v => if v = Config.unlistedByte then [] else [(a, v)]
  | (k, w) :: rest, a, v =>
    if a < k then
      if v = Config.unlistedByte then (k, w) :: rest else (a, v) :: (k, w) :: rest
    else if a = k then
      if v = Config.unlistedByte then rest else (a, v) :: rest
    else (k, w) :: Memory.put rest a v

/-- A write of one byte, at the address modulo 256. Only the loader writes (20_memory.md R33, R35, R52). -/
def Memory.write (m : Memory) (a : Nat) (v : Byte) : Memory := m.put (a % Config.memSize) v

/-- The bytes of a sequence written one after another from an address on (20_memory.md R49). -/
def Memory.writeFrom : Memory → Nat → List Byte → Memory
  | m, _, [] => m
  | m, a, b :: rest => Memory.writeFrom (m.write a b) (a + 1) rest

/-- The canonical form above a lower bound: every address at least lo and below 256, strictly rising, no byte equal to
what an unlisted address reads as. -/
def Memory.wfFrom : Nat → Memory → Bool
  | _, [] => true
  | lo, (k, v) :: rest =>
    decide (lo ≤ k) && decide (k < Config.memSize) && decide (v ≠ Config.unlistedByte) && Memory.wfFrom (k + 1) rest

/-- The canonical form of a memory. -/
def Memory.wf (m : Memory) : Bool := m.wfFrom 0

end Sys2Proof.Machine
end

