-- ==== Sys2Proof/Machine/State.lean ====
section
/-! DEFINITION. The state of the block (10_state.md R32): the registers, the program counter, the two flags, the halt flag,
the framebuffer, the segment value and program memory, and beside them the parameters of 00_scope.md R8 that a step or a
reset reads. Plain data throughout. -/

namespace Sys2Proof.Machine

/-- The record of 10_state.md R32. Its last field is the MODEL's own and not the spec's: the parameters, which nothing
ever writes. -/
structure State where
  /-- The sixteen general registers, none hardwired (10_state.md R13, R14); x[15] is the input register (R16). -/
  x : Vector Byte 16
  /-- The program counter, modulo 256 (10_state.md R18). -/
  pc : Byte
  /-- The Zero flag (10_state.md R22). -/
  z : Bool
  /-- The Carry flag (10_state.md R23). -/
  c : Bool
  /-- The halt flag (10_state.md R26). -/
  h : Bool
  /-- The framebuffer: fb[u][v] is FB[u][v] (10_state.md R28). -/
  fb : Vector (Vector Bool 24) 24
  /-- The segment value (10_state.md R29). -/
  seg : Byte
  /-- Program memory (10_state.md R30; 20_memory.md R33). -/
  mem : Memory
  /-- The parameters ADI_FLAGS and INIT_REGS (00_scope.md R8): the model's own field; log 3, log 4. -/
  params : Params
deriving DecidableEq, Repr

/-- Why a step may fault: for no reason at all. The block raises no exception, and every word at every address executes
(60_exceptions.md R117; 40_engine.md R94), so the type has no constructor and no meaning can answer with a fault. Safe and
exact by the spec; log 13. -/
inductive Fault where
deriving DecidableEq, Repr

/-- Why a step may be refused. -/
inductive Refusal where
  /-- Raised by exec for an instruction that has no meaning in the model yet (safe). Every instruction of Hydrazen v2 has
  its meaning, so no step of this model raises it. -/
  | notModelled (mnemonic : String)
deriving DecidableEq, Repr

/-- A framebuffer with every cell 0 (10_state.md R28; log 7). -/
def State.blankFb : Vector (Vector Bool 24) 24 := Vector.replicate 24 (Vector.replicate 24 false)

/-- The block as it is created (70_reset_and_hazards.md R134), for given parameters and a given INIT_MEM: memory is
INIT_MEM and every other item has its reset value (R136). The reset values of pc, the flags, H and seg are the spec's D6:
DESIGN CHOICE, unsafe, log 6. -/
def State.powerOn (p : Params) (initMem : Memory) : State :=
  { x := p.initRegs
    pc := 0
    z := false
    c := false
    h := false
    fb := State.blankFb
    seg := 0
    mem := initMem
    params := p }

/-- The machine right after power-on and reset under the spec's default parameters (00_scope.md R8; 70_reset_and_hazards.md
R134, R136): memory lists nothing (INIT_MEM all zero, log 5), INIT_REGS all zero (log 4), ADI_FLAGS = MASKED (log 3). -/
def State.reset : State := State.powerOn Params.standard []

end Sys2Proof.Machine
end

