-- ==== Sys2Proof/Machine/Ops.lean ====
section
/-! DEFINITION. The named operations on State that every meaning goes through. The block has no exception, no trap entry
and no return from one (60_exceptions.md R117, R120, R121), so there is no operation for them. -/

namespace Sys2Proof.Machine

/-- x[i]: read of a general register (10_state.md R13; 30_encoding.md R65). -/
def State.reg (s : State) (i : RegIdx) : Byte := s.x[i.toNat]'i.isLt

/-- x[i] <- v: write of a general register; no register is hardwired (10_state.md R14). -/
def State.setReg (s : State) (i : RegIdx) (v : Byte) : State := { s with x := s.x.set i.toNat v i.isLt }

/-- pc <- t (10_state.md R18). -/
def State.setPc (s : State) (t : Byte) : State := { s with pc := t }

/-- Z <- zf and C <- cf (10_state.md R22, R23). -/
def State.setFlags (s : State) (zf cf : Bool) : State := { s with z := zf, c := cf }

/-- H <- 1 (10_state.md R26; 41_system.md R97). -/
def State.halt (s : State) : State := { s with h := true }

/-- seg <- v (10_state.md R29). -/
def State.setSeg (s : State) (v : Byte) : State := { s with seg := v }

/-- FB[u][v] (10_state.md R28). -/
def State.cell (s : State) (u v : Fin 24) : Bool := s.fb[u][v]

/-- FB[u][v] <- FB[u][v] xor 1: a cell is only ever toggled (10_state.md R28; 45_output.md R115). -/
def State.toggleCell (s : State) (u v : Fin 24) : State :=
  { s with fb := s.fb.set u ((s.fb[u]).set v (!(s.fb[u][v]))) }

/-- The instruction fetch at pc: byte 1 at pc and byte 2 at pc + 1, each modulo 256, with no alignment check and no side
effect (20_memory.md R37, R38, R40; 40_engine.md R88; log 2). -/
def State.fetchWord (s : State) : Word :=
  wordOfBytes (s.mem.read s.pc.toNat) (s.mem.read (s.pc.toNat + 1))

/-- The PC advance, pc <- (pc + 2) mod 256, before the execute phase of every instruction (40_engine.md R90). -/
def State.advancePc (s : State) : State := s.setPc (s.pc + 2)

/-- What an ALU instruction writes: the result into its destination, then both flags (42_alu.md R98). -/
def State.writeResult (s : State) (d : RegIdx) (res : Byte) (zf cf : Bool) : State :=
  (s.setReg d res).setFlags zf cf

end Sys2Proof.Machine
end

