-- ==== Sys2Proof/Machine/Operands.lean ====
section
/-! DEFINITION. The operand forms (30_encoding.md R65 to R67; 45_output.md R115) and the narrowing of a raw result
(00_scope.md R9). Arithmetic is exact on integers and narrowed once, at the end. -/

namespace Sys2Proof.Machine

/-- A source register as the integer 0..255 it holds (00_scope.md R11; 30_encoding.md R65). -/
def State.regInt (s : State) (i : RegIdx) : Int := (s.reg i).toNat

/-- An immediate as an integer: unsigned, never sign-extended, scaled or shifted (30_encoding.md R66). -/
def immInt (imm : Byte) : Int := imm.toNat

/-- The target of a JMP or BRZ: absolute, not scaled, not relative to pc (30_encoding.md R67). -/
def target (addr : Byte) : Byte := addr

/-- mask8(v) = v mod 256, also for a negative v (00_scope.md R9; log 10). -/
def mask8 (v : Int) : Byte := BitVec.ofNat 8 (v % 256).toNat

/-- A plot coordinate: a register's value modulo 24 (45_output.md R115). -/
def plotCoord (v : Byte) : Fin 24 := ⟨v.toNat % 24, Nat.mod_lt _ (by decide)⟩

end Sys2Proof.Machine
end

