-- ==== Sys2Proof/Machine/Flags.lean ====
section
/-! DEFINITION. Every flag computation of the spec (10_state.md R24; 42_alu.md R98; 44_immediate.md R114). -/

namespace Sys2Proof.Machine

/-- Z of an ALU instruction: the zero test is made on the masked value, never on the raw one (42_alu.md R98). -/
def zeroOf (res : Byte) : Bool := res == 0

/-- C of ADD: the raw sum is above 255 (42_alu.md R99). -/
def carryOf (raw : Int) : Bool := decide (255 < raw)

/-- C of SUB: the raw difference is negative, a borrow (42_alu.md R100). -/
def borrowOf (raw : Int) : Bool := decide (raw < 0)

/-- C of AND, OR, XOR, NOR (R101 to R104) and of RSH and LSH (R105, R106): always 0, for the shifts because their range
check is made on the masked result (90_conflicts.md C2; log 9). -/
def carryClear : Bool := false

/-- Z of ADI under each value of ADI_FLAGS (44_immediate.md R114). -/
def adiZero (m : AdiFlags) (raw : Int) (res : Byte) : Bool :=
  match m with
  | .masked => zeroOf res
  | .rawCarry => zeroOf res
  | .rawBoth => decide (raw = 0)

/-- C of ADI under each value of ADI_FLAGS (44_immediate.md R114). -/
def adiCarry (m : AdiFlags) (raw : Int) : Bool :=
  match m with
  | .masked => carryClear
  | .rawCarry => carryOf raw
  | .rawBoth => carryOf raw

end Sys2Proof.Machine
end

