-- ==== Sys2Proof/Machine/Alu.lean ====
section
/-! DEFINITION. The ALU register instructions, execute phase (42_alu.md). Sources are read before the destination is
written (40_engine.md R92): every raw result below is computed from the state before the write. -/

namespace Sys2Proof.Machine

/-- The shared shape of a logic or shift instruction: result, Z from the result, C cleared (42_alu.md R98). -/
def State.writeLogic (s : State) (d : RegIdx) (res : Byte) : State :=
  s.writeResult d res (zeroOf res) carryClear

/-- ADD (42_alu.md R99). -/
def execAdd (a b c : RegIdx) (s : State) : Host.Outcome State Fault Refusal :=
  let raw := s.regInt a + s.regInt b
  .next (s.writeResult c (mask8 raw) (zeroOf (mask8 raw)) (carryOf raw))

/-- SUB (42_alu.md R100). -/
def execSub (a b c : RegIdx) (s : State) : Host.Outcome State Fault Refusal :=
  let raw := s.regInt a - s.regInt b
  .next (s.writeResult c (mask8 raw) (zeroOf (mask8 raw)) (borrowOf raw))

/-- AND (42_alu.md R101). -/
def execAnd (a b c : RegIdx) (s : State) : Host.Outcome State Fault Refusal :=
  .next (s.writeLogic c (s.reg a &&& s.reg b))

/-- OR (42_alu.md R102). -/
def execOr (a b c : RegIdx) (s : State) : Host.Outcome State Fault Refusal :=
  .next (s.writeLogic c (s.reg a ||| s.reg b))

/-- XOR (42_alu.md R103). -/
def execXor (a b c : RegIdx) (s : State) : Host.Outcome State Fault Refusal :=
  .next (s.writeLogic c (s.reg a ^^^ s.reg b))

/-- NOR (42_alu.md R104). -/
def execNor (a b c : RegIdx) (s : State) : Host.Outcome State Fault Refusal :=
  .next (s.writeLogic c (~~~(s.reg a ||| s.reg b)))

/-- RSH, logical, by one; the bit shifted out is lost (42_alu.md R105; log 9). -/
def execRsh (a c : RegIdx) (s : State) : Host.Outcome State Fault Refusal :=
  .next (s.writeLogic c (s.reg a >>> 1))

/-- LSH by one; the bit shifted out is lost (42_alu.md R106; log 9). -/
def execLsh (a c : RegIdx) (s : State) : Host.Outcome State Fault Refusal :=
  .next (s.writeLogic c (mask8 (2 * s.regInt a)))

end Sys2Proof.Machine
end

