-- ==== Sys2Proof/Machine/Control.lean ====
section
/-! DEFINITION. Control transfer, execute phase (43_control.md). pc already holds the advanced value (40_engine.md R90) and
a transfer replaces it; there is no delay slot (R111). Flags unchanged, log 8. -/

namespace Sys2Proof.Machine

/-- JMP: pc <- addr (43_control.md R109). -/
def execJmp (addr : Byte) (s : State) : Host.Outcome State Fault Refusal := .next (s.setPc (target addr))

/-- BRZ: if Z = 1 then pc <- addr, else pc keeps the advanced value (43_control.md R110). -/
def execBrz (addr : Byte) (s : State) : Host.Outcome State Fault Refusal :=
  .next (if s.z then s.setPc (target addr) else s)

end Sys2Proof.Machine
end

