-- ==== Sys2Proof/Machine/Immediate.lean ====
section
/-! DEFINITION. The immediate instructions, execute phase (44_immediate.md). -/

namespace Sys2Proof.Machine

/-- LDI: x[a] <- imm8; flags unchanged even when imm8 = 0 (44_immediate.md R113). -/
def execLdi (a : RegIdx) (imm : Byte) (s : State) : Host.Outcome State Fault Refusal :=
  .next (s.setReg a imm)

/-- ADI: x[a] <- (x[a] + imm8) mod 256, both flags by the parameter ADI_FLAGS (44_immediate.md R114; log 3). -/
def execAdi (a : RegIdx) (imm : Byte) (s : State) : Host.Outcome State Fault Refusal :=
  let raw := s.regInt a + immInt imm
  let res := mask8 raw
  .next (s.writeResult a res (adiZero s.params.adiFlags raw res) (adiCarry s.params.adiFlags raw))

end Sys2Proof.Machine
end

