-- ==== Sys2Proof/Machine/Output.lean ====
section
/-! DEFINITION. The output instructions, execute phase (45_output.md). Flags unchanged, log 8. -/

namespace Sys2Proof.Machine

/-- PLT: toggle FB[x[a] mod 24][x[b] mod 24] (45_output.md R115). -/
def execPlt (a b : RegIdx) (s : State) : Host.Outcome State Fault Refusal :=
  .next (s.toggleCell (plotCoord (s.reg a)) (plotCoord (s.reg b)))

/-- SEG: seg <- x[a], overwritten, not accumulated (45_output.md R116). -/
def execSeg (a : RegIdx) (s : State) : Host.Outcome State Fault Refusal := .next (s.setSeg (s.reg a))

end Sys2Proof.Machine
end

