-- ==== Sys2Proof/Machine/System.lean ====
section
/-! DEFINITION. NOP and HLT, execute phase (41_system.md). The PC advance has already happened (40_engine.md R90). -/

namespace Sys2Proof.Machine

/-- NOP: nothing (41_system.md R96); flags unchanged, log 8. -/
def execNop (s : State) : Host.Outcome State Fault Refusal := .next s

/-- HLT: H <- 1 (41_system.md R97); flags unchanged, log 8. -/
def execHlt (s : State) : Host.Outcome State Fault Refusal := .next s.halt

end Sys2Proof.Machine
end

