-- ==== Sys2Proof/Machine/Dispatch.lean ====
section
/-! DEFINITION. The execute phase: one arm per constructor of Instr (40_engine.md R91). The match is exhaustive. -/

namespace Sys2Proof.Machine

def exec (i : Instr) (s : State) : Host.Outcome State Fault Refusal :=
  match i with
  | .nop => Sys2Proof.Machine.execNop s
  | .hlt => Sys2Proof.Machine.execHlt s
  | .add a b c => Sys2Proof.Machine.execAdd a b c s
  | .sub a b c => Sys2Proof.Machine.execSub a b c s
  | .and a b c => Sys2Proof.Machine.execAnd a b c s
  | .or a b c => Sys2Proof.Machine.execOr a b c s
  | .xor a b c => Sys2Proof.Machine.execXor a b c s
  | .nor a b c => Sys2Proof.Machine.execNor a b c s
  | .jmp addr => Sys2Proof.Machine.execJmp addr s
  | .rsh a c => Sys2Proof.Machine.execRsh a c s
  | .lsh a c => Sys2Proof.Machine.execLsh a c s
  | .ldi a imm => Sys2Proof.Machine.execLdi a imm s
  | .adi a imm => Sys2Proof.Machine.execAdi a imm s
  | .brz addr => Sys2Proof.Machine.execBrz addr s
  | .plt a b => Sys2Proof.Machine.execPlt a b s
  | .seg a => Sys2Proof.Machine.execSeg a s

end Sys2Proof.Machine
end

