-- ==== Sys2Proof/Machine/Step.lean ====
section
/-! DEFINITION. One step of the block (40_engine.md R86, R87). -/

namespace Sys2Proof.Machine

/-- Step: nothing at all when halted (40_engine.md R86); else fetch, decode, PC advance, execute, in that order (R87). -/
def step (s : State) : Host.Outcome State Fault Refusal :=
  if s.h then .next s else exec (decode s.fetchWord) s.advancePc

/-- s with a given instruction stored where the next step fetches, byte 1 at pc and byte 2 at pc + 1 mod 256, and the halt
flag clear, because a halted step fetches nothing (40_engine.md R86, R88). It stands for the host's load of a program;
log 14. -/
def State.withFetchWord (s : State) (nbits w : Nat) : State :=
  { s with
    h := false
    mem := (s.mem.write s.pc.toNat (tableWord nbits w).byte1).write (s.pc.toNat + 1) (tableWord nbits w).byte2 }

end Sys2Proof.Machine
end

