-- ==== Sys2Proof/Machine/Assembler.lean ====
section
/-! DEFINITION. The two-pass assembler (30_encoding.md R73 to R85). It is the toolchain, outside the block (00_scope.md
R5); no meaning uses it. Source text is a list of characters. The lexical detail follows the spec's decisions D15 to D22
(log 16); the points those leave open are log 17. The second encoder of the reference software is not modelled (R84). -/

namespace Sys2Proof.Machine

/-- A word of source text after case folding: a mnemonic, a token or a label. -/
abbrev Name := List Char

/-- Why assembly fails (30_encoding.md R80). -/
inductive AsmFailure where
  | unknownMnemonic
  /-- A wrong operand count, a wrong operand kind, a register index outside 0..15 or a value above 255. -/
  | operands (why : IllFormed)
  /-- An unresolved label used as an operand. -/
  | unresolvedLabel
  /-- A label defined twice (D20). -/
  | duplicateLabel
  /-- A program of more than 256 bytes (D21). -/
  | programTooLong
  /-- What stands before the colon is no label (R75; log 17). -/
  | malformedLabel
  /-- A label that would bind to address 256, past the end of memory (20_memory.md R42; log 17). -/
  | labelBeyondMemory
deriving DecidableEq, Repr

/-- A failed assembly: the source line, counted from 1, and the reason (30_encoding.md R80, R81). -/
structure AsmError where
  line : Nat
  why : AsmFailure
deriving DecidableEq, Repr

/-! Lexical part (30_encoding.md R73 to R75). -/

/-- Whitespace inside a line (log 17). -/
def isBlank (ch : Char) : Bool := ch == ' ' || ch == '\t' || ch == '\r'

/-- The pieces of a text between the occurrences of a separator. -/
def pieces (sep : Char) : List Char → List (List Char)
  | [] => [[]]
  | ch :: rest =>
    if ch = sep then [] :: pieces sep rest
    else
      match pieces sep rest with
      | [] => [[ch]]
      | p :: ps => (ch :: p) :: ps

/-- A text without the whitespace at its ends. -/
def trimBlank (t : List Char) : List Char := ((t.dropWhile isBlank).reverse.dropWhile isBlank).reverse

/-- Normalisation of a line: the comment from a semicolon on is stripped and the case is folded (30_encoding.md R73); then
the whitespace at both ends is dropped, as E13 of 95_test_vectors.md needs for an indented instruction and before a comment.
DESIGN CHOICE (log 17): a label definition may be indented too; the spec names no whitespace before one. -/
def normalise (t : List Char) : List Char := trimBlank ((t.takeWhile (· != ';')).map Char.toLower)

/-- The value of a string of decimal digits. -/
def decimal (t : List Char) : Nat := t.foldl (fun n ch => 10 * n + (ch.toNat - '0'.toNat)) 0

/-- A non-empty string of decimal digits (30_encoding.md R75, D16). -/
def isNumeral (t : List Char) : Bool := !t.isEmpty && t.all Char.isDigit

/-- A letter or underscore, followed by letters, digits and underscores (30_encoding.md R75, D20). -/
def isIdentifier : List Char → Bool
  | [] => false
  | ch :: rest => (ch.isAlpha || ch == '_') && rest.all (fun d => d.isAlphanum || d == '_')

/-- The mnemonics (30_encoding.md R68), case folded. -/
def mnemonics : List (Name × Opcode) :=
  [(['n', 'o', 'p'], .nop), (['h', 'l', 't'], .hlt), (['a', 'd', 'd'], .add), (['s', 'u', 'b'], .sub),
   (['a', 'n', 'd'], .and), (['o', 'r'], .or), (['x', 'o', 'r'], .xor), (['n', 'o', 'r'], .nor),
   (['j', 'm', 'p'], .jmp), (['r', 's', 'h'], .rsh), (['l', 's', 'h'], .lsh), (['l', 'd', 'i'], .ldi),
   (['a', 'd', 'i'], .adi), (['b', 'r', 'z'], .brz), (['p', 'l', 't'], .plt), (['s', 'e', 'g'], .seg)]

/-- An operand token (30_encoding.md R75). -/
inductive Token where
  /-- R followed by a decimal integer, in range or not. -/
  | reg (n : Nat)
  /-- An integer literal. -/
  | literal (n : Nat)
  /-- An identifier that is no register token. DESIGN CHOICE (log 17): a mnemonic written as an operand is one too, though
  it can be no label, so that as a value it is an unresolved label. -/
  | label (l : Name)
  /-- Anything else; DESIGN CHOICE (log 17): it is an operand of the wrong kind. -/
  | junk
deriving DecidableEq, Repr

/-- The token a text is (30_encoding.md R75, R79): a literal is never looked up as a label. DESIGN CHOICE (log 17): R75
says that a mnemonic is no label, and names no failure for one written as an operand (JMP ADD); here it is a label token,
which no line can define, so a value operand of that form fails as unresolvedLabel and not as an operand of the wrong
kind. -/
def tokenOf (t : Name) : Token :=
  if isNumeral t then .literal (decimal t)
  else
    match t with
    | 'r' :: digits =>
      if isNumeral digits then .reg (decimal digits) else if isIdentifier t then .label t else .junk
    | _ => if isIdentifier t then .label t else .junk

/-- A text that may be defined as a label: an identifier, no register token and no mnemonic (30_encoding.md R75, D20). -/
def isLabel (t : Name) : Bool :=
  (match tokenOf t with
   | .label _ => true
   | .reg _ => false
   | .literal _ => false
   | .junk => false) && (mnemonics.lookup t).isNone

/-- The parts of a normalised line (30_encoding.md R74): what stands before its colon, if it has one, and the
instruction, if any, as a mnemonic and its operand texts. -/
structure SourceLine where
  label : Option Name
  body : Option (Name × List Name)
deriving DecidableEq, Repr

/-- The instruction part of a line: the mnemonic up to whitespace, the operands between commas (30_encoding.md R74). -/
def parseBody (t : List Char) : Option (Name × List Name) :=
  if t.isEmpty then none
  else
    let operands := trimBlank (t.dropWhile (fun ch => !isBlank ch))
    some (t.takeWhile (fun ch => !isBlank ch),
      if operands.isEmpty then [] else (pieces ',' operands).map trimBlank)

/-- A line in its parts (30_encoding.md R74). DESIGN CHOICE (log 17): the label is all that stands before the first colon,
so whitespace before the colon makes it malformed, and a later colon belongs to the instruction. -/
def parseLine (text : List Char) : SourceLine :=
  let t := normalise text
  if t.contains ':' then
    { label := some (t.takeWhile (· != ':'))
      body := parseBody (trimBlank ((t.dropWhile (· != ':')).drop 1)) }
  else { label := none, body := parseBody t }

/-- The lines of a source text, counted from 1. -/
def sourceLines (text : List Char) : List (Nat × SourceLine) :=
  (pieces '\n' text).zipIdx.map (fun p => (p.2 + 1, parseLine p.1))

/-! Pass 1 (30_encoding.md R77). -/

/-- The symbol table: labels and the addresses they are bound to. -/
abbrev Symbols := List (Name × Nat)

/-- The label part of a line, bound to the current value of the address counter (30_encoding.md R77, R80). -/
def bindLabel (syms : Symbols) (counter : Nat) : Option Name → Except AsmFailure Symbols
  | none => .ok syms
  | some l =>
    if !isLabel l then .error .malformedLabel
    else if (syms.lookup l).isSome then .error .duplicateLabel
    else if Config.memSize ≤ counter then .error .labelBeyondMemory
    else .ok (syms ++ [(l, counter)])

/-- An instruction line as pass 1 leaves it for pass 2: its line number, mnemonic and operand texts. -/
structure PendingLine where
  line : Nat
  mnemonic : Name
  operands : List Name
deriving DecidableEq, Repr

/-- Pass 1: the address counter advances by 2 for every line that holds an instruction, and by nothing for any other
(30_encoding.md R77); a program above 256 bytes fails (R80). -/
def pass1 : List (Nat × SourceLine) → Nat → Symbols → Except AsmError (Symbols × List PendingLine)
  | [], _, syms => .ok (syms, [])
  | (n, ln) :: rest, counter, syms =>
    match bindLabel syms counter ln.label with
    | .error e => .error { line := n, why := e }
    | .ok syms' =>
      match ln.body with
      | none => pass1 rest counter syms'
      | some (mn, ops) =>
        if Config.memSize < counter + 2 then .error { line := n, why := .programTooLong }
        else
          match pass1 rest (counter + 2) syms' with
          | .error e => .error e
          | .ok (out, pend) => .ok (out, { line := n, mnemonic := mn, operands := ops } :: pend)

/-! Pass 2 (30_encoding.md R78, R79). -/

/-- Whether a token can be an operand of a kind: a label or a literal is a value (30_encoding.md R76, D22). -/
def Token.hasKind : Token → OperandKind → Bool
  | .reg _, .reg => true
  | .literal _, .value => true
  | .label _, .value => true
  | .reg _, .value => false
  | .literal _, .reg => false
  | .label _, .reg => false
  | .junk, _ => false

/-- The operand a token stands for: a literal its own value, a label the address pass 1 bound to it (30_encoding.md
R79). -/
def resolve (syms : Symbols) : Token → Except AsmFailure Operand
  | .reg n => .ok (.reg n)
  | .literal n => .ok (.value n)
  | .label l =>
    match syms.lookup l with
    | some a => .ok (.value a)
    | none => .error .unresolvedLabel
  | .junk => .error (.operands .operandKind)

/-- All the operands of a line resolved, in order. -/
def resolveAll (syms : Symbols) : List Token → Except AsmFailure (List Operand)
  | [] => .ok []
  | t :: ts =>
    match resolve syms t with
    | .error e => .error e
    | .ok p =>
      match resolveAll syms ts with
      | .error e => .error e
      | .ok ps => .ok (p :: ps)

/-- Pass 2 on one line, its checks in the order of 30_encoding.md R78: the mnemonic, the operand count, the operand kinds,
the values resolved, the fields packed. -/
def assembleLine (syms : Symbols) (p : PendingLine) : Except AsmFailure Instr :=
  match mnemonics.lookup p.mnemonic with
  | none => .error .unknownMnemonic
  | some o =>
    let toks := p.operands.map tokenOf
    if toks.length ≠ o.kinds.length then .error (.operands .operandCount)
    else if !(toks.zip o.kinds).all (fun q => q.1.hasKind q.2) then .error (.operands .operandKind)
    else
      match resolveAll syms toks with
      | .error e => .error e
      | .ok ops =>
        match o.build ops with
        | .error e => .error (.operands e)
        | .ok i => .ok i

/-- Pass 2: every instruction line in order, stopping at the first error (30_encoding.md R78, R81). -/
def pass2 (syms : Symbols) : List PendingLine → Except AsmError (List Instr)
  | [] => .ok []
  | p :: ps =>
    match assembleLine syms p with
    | .error e => .error { line := p.line, why := e }
    | .ok i =>
      match pass2 syms ps with
      | .error e => .error e
      | .ok is => .ok (i :: is)

/-- The instructions of a source text, or its first error; on an error nothing is emitted (30_encoding.md R81). -/
def assembleInstrs (text : List Char) : Except AsmError (List Instr) :=
  match pass1 (sourceLines text) 0 [] with
  | .error e => .error e
  | .ok (syms, pend) => pass2 syms pend

/-- The assembler: the byte sequence of a source text, two bytes an instruction line, byte 1 first (30_encoding.md R82). -/
def assemble (text : List Char) : Except AsmError (List Byte) :=
  match assembleInstrs text with
  | .error e => .error e
  | .ok is => .ok (is.flatMap encodeBytes)

end Sys2Proof.Machine
end

