-- ==== Sys2Proof/Machine/HostOps.lean ====
section
/-! DEFINITION. The host's operations on the block (60_exceptions.md R131). Each is atomic and falls between two steps
(R132). Which operations the host performs, and in what order, is left free: a run is driven by any list of them, which
takes in every INPUT_SCHEDULE (R127), every STEPS_BETWEEN_HOST_OPS (70_reset_and_hazards.md R148), and resets and loads
at any step boundary (R135; 20_memory.md R47); log 12. -/

namespace Sys2Proof.Machine

/-- The five values the input collaborator writes (60_exceptions.md R127). -/
inductive Input where
  | none | up | left | down | right
deriving DecidableEq, Repr

/-- The code of an input value, 0 to 4 (60_exceptions.md R127). -/
def Input.code : Input → Byte
  | .none => 0
  | .up => 1
  | .left => 2
  | .down => 3
  | .right => 4

/-- The value the host writes when several keys are held: down, then left, then up, then right (60_exceptions.md R127). -/
def Input.ofHeld (up left down right : Bool) : Input :=
  if down then .down else if left then .left else if up then .up else if right then .right else .none

/-- reset(): every item to its reset value, M unchanged (70_reset_and_hazards.md R136). -/
def State.hostReset (s : State) : State := State.powerOn s.params s.mem

/-- The loader's own check: it performs a load of at most 256 bytes and refuses a longer one (20_memory.md R49). The loader
is the host's, so the refusal is known on the host's side, and the block reports nothing (60_exceptions.md R133; log 11). -/
def loaderAccepts (b : List Byte) : Bool := decide (b.length ≤ Config.memSize)

/-- load(b): byte i to address i; nothing else changes. A sequence the loader refuses changes nothing (20_memory.md R49;
log 11). -/
def State.load (s : State) (b : List Byte) : State :=
  if loaderAccepts b then { s with mem := s.mem.writeFrom 0 b } else s

/-- write_input(k): x[15] <- k; nothing else changes, halted or not (60_exceptions.md R127). -/
def State.writeInput (s : State) (k : Input) : State := s.setReg 15 k.code

/-- The operations by which the host reaches the block (60_exceptions.md R131; the names are the spec's own, log 18). -/
inductive HostOp where
  | reset
  | load (bytes : List Byte)
  | step
  | writeInput (k : Input)
  | readOutputs
  | readState
deriving DecidableEq, Repr

/-- What the host gets back: at most the halt indication of a step and the values of a read, and no error
(60_exceptions.md R131, R133). -/
inductive HostReply where
  | nothing
  /-- Whether H = 1 after a step. -/
  | halted (h : Bool)
  /-- The framebuffer and the segment value (R125, R126). -/
  | outputs (fb : Vector (Vector Bool 24) 24) (seg : Byte)
  /-- The whole state (R129). -/
  | state (s : State)
deriving DecidableEq, Repr

/-- One host operation: the state after it. -/
def hostOp (op : HostOp) (s : State) : Host.Outcome State Fault Refusal :=
  match op with
  | .reset => .next s.hostReset
  | .load b => .next (s.load b)
  | .step => step s
  | .writeInput k => .next (s.writeInput k)
  | .readOutputs => .next s
  | .readState => .next s

/-- What the host gets back from an operation that took the block from s to t (60_exceptions.md R131). -/
def hostReply (op : HostOp) (s t : State) : HostReply :=
  match op with
  | .reset => .nothing
  | .load _ => .nothing
  | .step => .halted t.h
  | .writeInput _ => .nothing
  | .readOutputs => .outputs s.fb s.seg
  | .readState => .state s

/-- A run of the block under a list of host operations, in order (40_engine.md R95). -/
def runHost : List HostOp → State → Host.Outcome State Fault Refusal
  | [], s => .next s
  | op :: ops, s =>
    match hostOp op s with
    | .next t => runHost ops t
    | .fault r => .fault r
    | .refused r => .refused r

end Sys2Proof.Machine
end

