-- ==== Sys2Proof/Machine/Scheduler.lean ====
section
/-! DEFINITION. The host's Cycle Scheduler (70_reset_and_hazards.md R145 to R147). Its bookkeeping is host state, outside
the block (10_state.md R32), so it stands in a structure of its own around a State. Time is an exact rational; log 15. -/

namespace Sys2Proof.Machine

/-- The block and the scheduler's bookkeeping around it. -/
structure Scheduler where
  /-- The block. -/
  block : State
  /-- The cycle count (70_reset_and_hazards.md R147). -/
  cycles : Nat
  /-- The last-cycle timestamp, in seconds (70_reset_and_hazards.md R146). -/
  last : Rat
deriving DecidableEq, Repr

/-- One step() of the scheduler: a step performed while H = 0 is counted, the HLT step included; a step performed while
H = 1 is not (70_reset_and_hazards.md R147; 40_engine.md R86). -/
def Scheduler.step (k : Scheduler) : Host.Outcome Scheduler Fault Refusal :=
  match Machine.step k.block with
  | .next t => .next { k with block := t, cycles := if k.block.h then k.cycles else k.cycles + 1 }
  | .fault r => .fault r
  | .refused r => .refused r

/-- Up to n steps, stopping early once H = 1 (70_reset_and_hazards.md R145). -/
def Scheduler.steps : Nat → Scheduler → Host.Outcome Scheduler Fault Refusal
  | 0, k => .next k
  | n + 1, k =>
    if k.block.h then .next k
    else
      match k.step with
      | .next k' => Scheduler.steps n k'
      | .fault r => .fault r
      | .refused r => .refused r

/-- steps = floor(elapsed / (1/f)) (70_reset_and_hazards.md R145). -/
def Scheduler.due (f elapsed : Rat) : Nat := (elapsed / (1 / f)).floor.toNat

/-- One evaluation of the scheduler at the time now: the due steps are run, and the timestamp advances by
steps * (1/f), not to now (70_reset_and_hazards.md R145, R146). -/
def Scheduler.tick (f now : Rat) (k : Scheduler) : Host.Outcome Scheduler Fault Refusal :=
  let n := Scheduler.due f (now - k.last)
  match Scheduler.steps n k with
  | .next k' => .next { k' with last := k.last + n * (1 / f) }
  | .fault r => .fault r
  | .refused r => .refused r

/-- A host operation with its bookkeeping: step is counted as above, reset sets the count to 0 (the spec's choice,
70_reset_and_hazards.md R147), every other operation leaves the bookkeeping alone. -/
def Scheduler.host (op : HostOp) (k : Scheduler) : Host.Outcome Scheduler Fault Refusal :=
  match op with
  | .step => k.step
  | .reset => .next { k with block := k.block.hostReset, cycles := 0 }
  | .load b => .next { k with block := k.block.load b }
  | .writeInput i => .next { k with block := k.block.writeInput i }
  | .readOutputs => .next k
  | .readState => .next k

end Sys2Proof.Machine
end

