-- ==== Sys2Proof/Machine/Usage.lean ====
section
/-! DEFINITION. What each instruction reads and writes, as the spec tabulates it. These tables are the spec's claims
about the meanings, not the meanings themselves: no meaning uses them. -/

namespace Sys2Proof.Machine

/-- The registers an instruction reads (10_state.md R15). -/
def regsRead : Instr → List RegIdx
  | .nop => []
  | .hlt => []
  | .add a b _ => [a, b]
  | .sub a b _ => [a, b]
  | .and a b _ => [a, b]
  | .or a b _ => [a, b]
  | .xor a b _ => [a, b]
  | .nor a b _ => [a, b]
  | .jmp _ => []
  | .rsh a _ => [a]
  | .lsh a _ => [a]
  | .ldi _ _ => []
  | .adi a _ => [a]
  | .brz _ => []
  | .plt a b => [a, b]
  | .seg a => [a]

/-- The register an instruction writes, if any (10_state.md R15). -/
def regWritten : Instr → Option RegIdx
  | .nop => none
  | .hlt => none
  | .add _ _ c => some c
  | .sub _ _ c => some c
  | .and _ _ c => some c
  | .or _ _ c => some c
  | .xor _ _ c => some c
  | .nor _ _ c => some c
  | .jmp _ => none
  | .rsh _ c => some c
  | .lsh _ c => some c
  | .ldi a _ => some a
  | .adi a _ => some a
  | .brz _ => none
  | .plt _ _ => none
  | .seg _ => none

/-- Whether an instruction writes the flags, always both (10_state.md R24). -/
def writesFlags : Instr → Bool
  | .nop => false
  | .hlt => false
  | .add _ _ _ => true
  | .sub _ _ _ => true
  | .and _ _ _ => true
  | .or _ _ _ => true
  | .xor _ _ _ => true
  | .nor _ _ _ => true
  | .jmp _ => false
  | .rsh _ _ => true
  | .lsh _ _ => true
  | .ldi _ _ => false
  | .adi _ _ => true
  | .brz _ => false
  | .plt _ _ => false
  | .seg _ => false

end Sys2Proof.Machine
end

