-- ==== Sys2Proof/Safety.lean ====
section
/-! DEFINITION. The terms in which statements about the machine are made: what a safe step and an ended run are, the
invariant of the state, and when two states agree but for one part. -/

namespace Sys2Proof.Machine

/-- The invariant of a state. Those of 10_state.md R32 hold by the types of the fields; what is left is that memory is in
its canonical form. -/
abbrev State.Inv (s : State) : Prop := s.mem.wf = true

/-- The execute phase of an instruction completes: it answers a next state. -/
abbrev Completes (i : Instr) (s : State) : Prop := ∃ t, exec i s = .next t

/-- A safe step: neither a fault nor a refusal (40_engine.md R94). -/
abbrev SafeStep (s : State) : Prop := ∃ t, step s = .next t

/-- A run has ended when H = 1 (40_engine.md R95). -/
abbrev Ended (s : State) : Prop := s.h = true

/-- Two states agree but for the Carry flag. -/
structure SameButCarry (s t : State) : Prop where
  x : s.x = t.x
  pc : s.pc = t.pc
  z : s.z = t.z
  h : s.h = t.h
  fb : s.fb = t.fb
  seg : s.seg = t.seg
  mem : s.mem = t.mem
  params : s.params = t.params

/-- Two states agree but for the output state: the framebuffer and the segment value. -/
structure SameButOutputs (s t : State) : Prop where
  x : s.x = t.x
  pc : s.pc = t.pc
  z : s.z = t.z
  c : s.c = t.c
  h : s.h = t.h
  mem : s.mem = t.mem
  params : s.params = t.params

/-- What a halted engine keeps (40_engine.md R86; 60_exceptions.md R130): everything but x[15], which the host may write,
and memory, which the loader may write. -/
structure SameWhileHalted (s t : State) : Prop where
  regs : ∀ r : RegIdx, r ≠ 15 → t.reg r = s.reg r
  pc : t.pc = s.pc
  z : t.z = s.z
  c : t.c = s.c
  h : t.h = s.h
  fb : t.fb = s.fb
  seg : t.seg = s.seg
  params : t.params = s.params

/-- Every register but one is as before. -/
abbrev SameRegsBut (d : RegIdx) (s t : State) : Prop := ∀ r, r ≠ d → t.reg r = s.reg r

/-- Memory is as before: every byte that can be read, and the listed bytes. -/
structure SameMemory (s t : State) : Prop where
  bytes : ∀ a, t.mem.read a = s.mem.read a
  cells : t.mem = s.mem

/-- Both flags are as before. -/
structure SameFlags (s t : State) : Prop where
  z : t.z = s.z
  c : t.c = s.c

/-- Everything but the registers and the flags is as before. -/
structure SameButRegsFlags (s t : State) : Prop where
  pc : t.pc = s.pc
  h : t.h = s.h
  cells : ∀ u v, t.cell u v = s.cell u v
  seg : t.seg = s.seg
  mem : SameMemory s t
  params : t.params = s.params

/-- Everything but the program counter is as before. -/
structure SameButPc (s t : State) : Prop where
  regs : ∀ r, t.reg r = s.reg r
  flags : SameFlags s t
  h : t.h = s.h
  cells : ∀ u v, t.cell u v = s.cell u v
  seg : t.seg = s.seg
  mem : SameMemory s t
  params : t.params = s.params

/-- Everything but the framebuffer is as before. -/
structure SameButCells (s t : State) : Prop where
  regs : ∀ r, t.reg r = s.reg r
  flags : SameFlags s t
  pc : t.pc = s.pc
  h : t.h = s.h
  seg : t.seg = s.seg
  mem : SameMemory s t
  params : t.params = s.params

/-- Everything but the segment value is as before. -/
structure SameButSeg (s t : State) : Prop where
  regs : ∀ r, t.reg r = s.reg r
  flags : SameFlags s t
  pc : t.pc = s.pc
  h : t.h = s.h
  cells : ∀ u v, t.cell u v = s.cell u v
  mem : SameMemory s t
  params : t.params = s.params

/-- Everything but the halt flag is as before. -/
structure SameButHalt (s t : State) : Prop where
  regs : ∀ r, t.reg r = s.reg r
  flags : SameFlags s t
  pc : t.pc = s.pc
  cells : ∀ u v, t.cell u v = s.cell u v
  seg : t.seg = s.seg
  mem : SameMemory s t
  params : t.params = s.params

/-- The instruction i, run in s, completes, writes res into register d, sets Z when res is 0 and C to carry, and changes
nothing else (42_alu.md R98). -/
def WritesResult (i : Instr) (s : State) (d : RegIdx) (res : Byte) (carry : Bool) : Prop :=
  ∃ t, exec i s = .next t ∧ t.reg d = res ∧ t.z = decide (res = 0) ∧ t.c = carry ∧ SameRegsBut d s t ∧
    SameButRegsFlags s t

/-- The operation is a reset. -/
def HostOp.isReset : HostOp → Bool
  | .reset => true
  | .load _ => false
  | .step => false
  | .writeInput _ => false
  | .readOutputs => false
  | .readState => false

/-- The operation is a load. -/
def HostOp.isLoad : HostOp → Bool
  | .load _ => true
  | .reset => false
  | .step => false
  | .writeInput _ => false
  | .readOutputs => false
  | .readState => false

end Sys2Proof.Machine
end

