-- ==== Sys2Proof/Certificates/Slice0/Obligations.lean ====
section
/-! DEFINITION. The statements for the provers, each a def Obligations.<Name> : Prop. Where a statement rests on a decision
the spec marks as its own, or on a choice of the model, its docstring names the decision and the log entry. Registers are
compared as numbers, so that a statement says what a rule says and not how the model computes it. -/

open Sys2Proof Sys2Proof.Machine

/-! Encoding. -/

/-- Decoding an encoded instruction gives it back, alone and at the front of any byte sequence. No operand is lost, at any
value. Rests on the field positions the spec decides (D1 to D3, log 1). -/
def Obligations.DecodeOfEncode : Prop :=
  ∀ (i : Instr) (rest : List Byte), decode (encode i) = i ∧ decodeBytes (encodeBytes i ++ rest) = .ok (i, rest)

/-- Two words are the same instruction exactly when they agree in the opcode and in every bit the format of that opcode
does not ignore. The spec marks it as derived (R71), on the field positions of D1 to D3, log 1. -/
def Obligations.SameInstructionIffReadBitsAgree : Prop :=
  ∀ w v : Word, decode w = decode v ↔
    (w.op = v.op ∧ w &&& (Opcode.ofField w.op).readMask = v &&& (Opcode.ofField w.op).readMask)

/-- The opcode map and the seven formats, as numbers: n, m and j are the ignored fields and take every value. The field
positions are the spec's decision (D1 to D3, log 1). -/
def Obligations.OpcodesAndFields : Prop :=
  ∀ (a b c j : RegIdx) (v m : Byte) (n : BitVec 12),
    decode (BitVec.ofNat 16 (0x0 * 4096 + n.toNat)) = .nop ∧
    decode (BitVec.ofNat 16 (0x1 * 4096 + n.toNat)) = .hlt ∧
    decode (BitVec.ofNat 16 (0x2 * 4096 + a.toNat * 256 + b.toNat * 16 + c.toNat)) = .add a b c ∧
    decode (BitVec.ofNat 16 (0x3 * 4096 + a.toNat * 256 + b.toNat * 16 + c.toNat)) = .sub a b c ∧
    decode (BitVec.ofNat 16 (0x4 * 4096 + a.toNat * 256 + b.toNat * 16 + c.toNat)) = .and a b c ∧
    decode (BitVec.ofNat 16 (0x5 * 4096 + a.toNat * 256 + b.toNat * 16 + c.toNat)) = .or a b c ∧
    decode (BitVec.ofNat 16 (0x6 * 4096 + a.toNat * 256 + b.toNat * 16 + c.toNat)) = .xor a b c ∧
    decode (BitVec.ofNat 16 (0x7 * 4096 + a.toNat * 256 + b.toNat * 16 + c.toNat)) = .nor a b c ∧
    decode (BitVec.ofNat 16 (0x8 * 4096 + j.toNat * 256 + v.toNat)) = .jmp v ∧
    decode (BitVec.ofNat 16 (0x9 * 4096 + a.toNat * 256 + j.toNat * 16 + c.toNat)) = .rsh a c ∧
    decode (BitVec.ofNat 16 (0xA * 4096 + a.toNat * 256 + j.toNat * 16 + c.toNat)) = .lsh a c ∧
    decode (BitVec.ofNat 16 (0xB * 4096 + a.toNat * 256 + v.toNat)) = .ldi a v ∧
    decode (BitVec.ofNat 16 (0xC * 4096 + a.toNat * 256 + v.toNat)) = .adi a v ∧
    decode (BitVec.ofNat 16 (0xD * 4096 + j.toNat * 256 + v.toNat)) = .brz v ∧
    decode (BitVec.ofNat 16 (0xE * 4096 + a.toNat * 256 + b.toNat * 16 + j.toNat)) = .plt a b ∧
    decode (BitVec.ofNat 16 (0xF * 4096 + a.toNat * 256 + m.toNat)) = .seg a

/-- Words written out in 95_test_vectors.md decode to the instructions that file gives; its words rest on the spec's
decision D1, log 1. -/
def Obligations.WordsWrittenOut : Prop :=
  decodeTableWord 16 0x0ABC = some .nop ∧ decodeTableWord 16 0x1FFF = some .hlt ∧
  decodeTableWord 16 0x2123 = some (.add 1 2 3) ∧ decodeTableWord 16 0x3456 = some (.sub 4 5 6) ∧
  decodeTableWord 16 0x7FFF = some (.nor 15 15 15) ∧ decodeTableWord 16 0x8F40 = some (.jmp 0x40) ∧
  decodeTableWord 16 0x9A53 = some (.rsh 10 3) ∧ decodeTableWord 16 0xB32A = some (.ldi 3 42) ∧
  decodeTableWord 16 0xC2FB = some (.adi 2 251) ∧ decodeTableWord 16 0xD512 = some (.brz 0x12) ∧
  decodeTableWord 16 0xE01F = some (.plt 0 1) ∧ decodeTableWord 16 0xFFFF = some (.seg 15)

/-! The step. -/

/-- Every instruction word completes in every state, and every step is safe: the engine has no failure path (R12). -/
def Obligations.NoFailurePath : Prop :=
  ∀ s : State, SafeStep s ∧ ∀ w : Word, Completes (decode w) s

/-- A halted step changes no state at all, and the scheduler does not count it (R86). -/
def Obligations.HaltedStepChangesNothing : Prop :=
  (∀ s : State, Ended s → step s = .next s) ∧ ∀ k : Scheduler, Ended k.block → k.step = .next k

/-- A step of a running machine executes the instruction that the two bytes at pc and pc + 1 decode to, in the state whose
pc has advanced by 2, and does nothing else (R87, R88). That the byte at pc is the more significant is R38, which the spec
marks as derived (N10: the source has no explicit statement), log 2. -/
def Obligations.StepRunsDecodedInstruction : Prop :=
  ∀ (s : State) (i : Instr), s.h = false →
    decode (BitVec.ofNat 16 ((s.mem.read (s.pc.toNat % 256)).toNat * 256 + (s.mem.read ((s.pc.toNat + 1) % 256)).toNat)) = i →
    step s = exec i { s with pc := BitVec.ofNat 8 ((s.pc.toNat + 2) % 256) }

/-- The fetch reads the bytes at pc and (pc + 1) mod 256, byte 1 the more significant, at every pc, odd ones and 255
included: at 255 byte 2 is the byte at 0 (R37, R40, R54). That byte 1 is the byte at pc and the more significant is R38,
which the spec marks as derived (N10), log 2; the readings at an odd pc (N18) and at 255 (C1) are log 19. -/
def Obligations.FetchReadsTwoBytes : Prop :=
  ∀ s : State,
    s.fetchWord.toNat =
      (s.mem.read (s.pc.toNat % 256)).toNat * 256 + (s.mem.read ((s.pc.toNat + 1) % 256)).toNat ∧
    (s.pc.toNat = 255 → s.fetchWord.toNat = (s.mem.read 255).toNat * 256 + (s.mem.read 0).toNat)

/-- After a step of a running machine, pc is the advanced value, or the absolute target of a jump or of a branch taken
(R90). -/
def Obligations.NextProgramCounter : Prop :=
  ∀ s : State, s.h = false → ∃ t, step s = .next t ∧
    t.pc.toNat =
      match decode s.fetchWord with
      | .jmp addr => addr.toNat
      | .brz addr => if s.z = true then addr.toNat else (s.pc.toNat + 2) % 256
      | _ => (s.pc.toNat + 2) % 256

/-! What each instruction does. Each of these says that the execute phase completes, in every state. -/

/-- NOP changes nothing and HLT sets H alone. That the flags keep their values is the spec's decision D5, log 8. -/
def Obligations.NopAndHltResults : Prop :=
  ∀ s : State, exec .nop s = .next s ∧
    ∃ t, exec .hlt s = .next t ∧ t.h = true ∧ SameButHalt s t

/-- ADD: the sum modulo 256, C the carry, Z from the masked result, nothing else. -/
def Obligations.AddResult : Prop :=
  ∀ (a b c : RegIdx) (s : State),
    WritesResult (.add a b c) s c (BitVec.ofNat 8 (((s.reg a).toNat + (s.reg b).toNat) % 256))
      (decide (255 < (s.reg a).toNat + (s.reg b).toNat))

/-- SUB: the difference modulo 256, C exactly when the first is below the second, Z exactly when they are equal (R100). That
a negative difference masked with 0xFF is taken modulo 256 is not in the source: the spec marks it as general knowledge
(R9, G1), log 10, PRESUMED. -/
def Obligations.SubResult : Prop :=
  ∀ (a b c : RegIdx) (s : State),
    WritesResult (.sub a b c) s c (BitVec.ofNat 8 ((256 + (s.reg a).toNat - (s.reg b).toNat) % 256))
      (decide ((s.reg a).toNat < (s.reg b).toNat)) ∧
    ∃ t, exec (.sub a b c) s = .next t ∧ t.z = decide (s.reg a = s.reg b)

/-- AND, OR, XOR and NOR: the result bit by bit, C cleared, Z from the result, nothing else. -/
def Obligations.LogicResults : Prop :=
  ∀ (a b c : RegIdx) (s : State), ∃ pAnd pOr pXor pNor : Byte,
    (∀ j : Fin 8, pAnd[j] = ((s.reg a)[j] && (s.reg b)[j]) ∧ pOr[j] = ((s.reg a)[j] || (s.reg b)[j]) ∧
      pXor[j] = ((s.reg a)[j] ^^ (s.reg b)[j]) ∧ pNor[j] = !((s.reg a)[j] || (s.reg b)[j])) ∧
    WritesResult (.and a b c) s c pAnd false ∧ WritesResult (.or a b c) s c pOr false ∧
    WritesResult (.xor a b c) s c pXor false ∧ WritesResult (.nor a b c) s c pNor false

/-- RSH halves and LSH doubles modulo 256; C is cleared whatever bit is shifted out (log 9). -/
def Obligations.ShiftResults : Prop :=
  ∀ (a c : RegIdx) (s : State),
    WritesResult (.rsh a c) s c (BitVec.ofNat 8 ((s.reg a).toNat / 2)) false ∧
    WritesResult (.lsh a c) s c (BitVec.ofNat 8 (2 * (s.reg a).toNat % 256)) false

/-- LDI loads the immediate and touches no flag, even for 0. -/
def Obligations.LdiResult : Prop :=
  ∀ (a : RegIdx) (imm : Byte) (s : State), ∃ t, exec (.ldi a imm) s = .next t ∧ (t.reg a).toNat = imm.toNat ∧
    SameRegsBut a s t ∧ SameFlags s t ∧ SameButRegsFlags s t

/-- ADI under each value of ADI_FLAGS (the parameter of D4, log 3): the sum modulo 256 always, the flags by the value. -/
def Obligations.AdiResult : Prop :=
  ∀ (a : RegIdx) (imm : Byte) (s : State), ∃ t, exec (.adi a imm) s = .next t ∧
    (t.reg a).toNat = ((s.reg a).toNat + imm.toNat) % 256 ∧
    (s.params.adiFlags = .masked → t.z = decide (((s.reg a).toNat + imm.toNat) % 256 = 0) ∧ t.c = false) ∧
    (s.params.adiFlags = .rawCarry → t.z = decide (((s.reg a).toNat + imm.toNat) % 256 = 0) ∧
      t.c = decide (255 < (s.reg a).toNat + imm.toNat)) ∧
    (s.params.adiFlags = .rawBoth → t.z = decide ((s.reg a).toNat + imm.toNat = 0) ∧
      t.c = decide (255 < (s.reg a).toNat + imm.toNat)) ∧
    SameRegsBut a s t ∧ SameButRegsFlags s t

/-- JMP replaces pc by its address; BRZ does so exactly when Z = 1, and keeps pc else. Neither touches anything else (the
flags by D5, log 8). -/
def Obligations.JumpAndBranchResults : Prop :=
  ∀ (addr : Byte) (s : State),
    (∃ t, exec (.jmp addr) s = .next t ∧ t.pc = addr ∧ SameButPc s t) ∧
    (∃ t, exec (.brz addr) s = .next t ∧ (s.z = true → t.pc = addr) ∧ (s.z = false → t.pc = s.pc) ∧ SameButPc s t)

/-- PLT inverts the one cell at the two registers modulo 24 and leaves every other cell and everything else (the flags by
D5, log 8). -/
def Obligations.PlotResult : Prop :=
  ∀ (a b : RegIdx) (s : State), ∃ t, exec (.plt a b) s = .next t ∧
    (∀ u v : Fin 24, t.cell u v =
      if u.val = (s.reg a).toNat % 24 ∧ v.val = (s.reg b).toNat % 24 then !s.cell u v else s.cell u v) ∧
    SameButCells s t

/-- SEG copies its register to the segment value and changes nothing else (the flags by D5, log 8). -/
def Obligations.SegResult : Prop :=
  ∀ (a : RegIdx) (s : State), ∃ t, exec (.seg a) s = .next t ∧ t.seg = s.reg a ∧ SameButSeg s t

/-! Flags, arithmetic and output laws. -/

/-- Every ALU register instruction writes both flags: Z from the value written to the destination; C the carry for ADD, the
borrow for SUB, 0 for the six others (R98). -/
def Obligations.AluWritesBothFlags : Prop :=
  ∀ (a b d : RegIdx) (s : State),
    (∀ i ∈ [Instr.add a b d, .sub a b d, .and a b d, .or a b d, .xor a b d, .nor a b d, .rsh a d, .lsh a d],
      ∃ t, exec i s = .next t ∧ t.z = decide (t.reg d = 0)) ∧
    (∃ t, exec (.add a b d) s = .next t ∧ t.c = decide (256 ≤ (s.reg a).toNat + (s.reg b).toNat)) ∧
    (∃ t, exec (.sub a b d) s = .next t ∧ t.c = decide ((s.reg a).toNat < (s.reg b).toNat)) ∧
    ∀ i ∈ [Instr.and a b d, .or a b d, .xor a b d, .nor a b d, .rsh a d, .lsh a d],
      ∃ t, exec i s = .next t ∧ t.c = false

/-- The corrected round trip (90_conflicts.md C3): ADD a, b, c then SUB c, b, c leaves the old x[a] in x[c] when c is not
b, and 0 when it is. The spec marks the identity as derived (R108). Where the ADD overflows, the SUB borrows, and the
identity rests on reducing a negative difference modulo 256: general knowledge by R9 and G1, log 10, PRESUMED. -/
def Obligations.AddThenSubReturns : Prop :=
  ∀ (a b c : RegIdx) (s : State), ∃ t u, exec (.add a b c) s = .next t ∧ exec (.sub c b c) t = .next u ∧
    (c ≠ b → u.reg c = s.reg a) ∧ (c = b → u.reg c = 0)

/-- NOR of a register with itself is its complement, SUB from a register holding 0 is the negation modulo 256, and XOR of a
register with itself is 0 with Z set (R107, R108; the spec marks R108 as derived). The negation is a SUB with a borrow, so
that clause rests on reducing a negative difference modulo 256: general knowledge by R9 and G1, log 10, PRESUMED. -/
def Obligations.ComplementNegationClear : Prop :=
  ∀ (a b c : RegIdx) (s : State),
    (∃ t, exec (.nor a a c) s = .next t ∧ (t.reg c).toNat = 255 - (s.reg a).toNat) ∧
    (∃ t, exec (.sub a b c) s = .next t ∧ (s.reg a = 0 → ((s.reg b).toNat + (t.reg c).toNat) % 256 = 0)) ∧
    (∃ t, exec (.xor a a c) s = .next t ∧ t.reg c = 0 ∧ t.z = true ∧ t.c = false)

/-- Under any two values of ADI_FLAGS, ADI leaves the same registers; Z is the same but when the raw sum is 256, and C is
the same when the raw sum is at most 255. ADI_FLAGS is the parameter of D4, log 3. -/
def Obligations.AdiReadingsAgree : Prop :=
  ∀ (a : RegIdx) (imm : Byte) (s : State) (m m' : AdiFlags), ∃ t t',
    exec (.adi a imm) { s with params := { s.params with adiFlags := m } } = .next t ∧
    exec (.adi a imm) { s with params := { s.params with adiFlags := m' } } = .next t' ∧
    t.x = t'.x ∧ ((s.reg a).toNat + imm.toNat ≠ 256 → t.z = t'.z) ∧
    ((s.reg a).toNat + imm.toNat ≤ 255 → t.c = t'.c)

/-- Two plots at the same coordinates modulo 24, by whichever registers, restore the whole state. The cell is restored by
R115; that the flags are kept by both plots is the spec's decision D5, log 8. -/
def Obligations.PlotTwiceRestores : Prop :=
  ∀ (a b a' b' : RegIdx) (s : State), (s.reg a).toNat % 24 = (s.reg a').toNat % 24 →
    (s.reg b).toNat % 24 = (s.reg b').toNat % 24 →
    ∃ t, exec (.plt a b) s = .next t ∧ exec (.plt a' b') t = .next s

/-! What no instruction does. -/

/-- What each instruction leaves unchanged, over all instructions at once. That a row which names no flag effect keeps the
flags is the spec's decision D5, log 8. -/
def Obligations.ExecFrame : Prop :=
  ∀ (i : Instr) (s t : State), exec i s = .next t →
    (∀ r, regWritten i ≠ some r → t.reg r = s.reg r) ∧
    (writesFlags i = false → SameFlags s t) ∧
    (i ≠ .hlt → t.h = s.h) ∧
    ((∀ addr, i ≠ .jmp addr ∧ i ≠ .brz addr) → t.pc = s.pc) ∧
    ((∀ a, i ≠ .seg a) → t.seg = s.seg) ∧
    (∀ u v, (∀ a b, i = .plt a b → ¬(u = plotCoord (s.reg a) ∧ v = plotCoord (s.reg b))) → t.cell u v = s.cell u v) ∧
    SameMemory s t ∧ t.params = s.params

/-- The register table: an instruction writes at most the register listed, and reads no register but those listed. Two
states that differ only in unlisted registers give the same written value and agree in everything else (R15). -/
def Obligations.RegisterAccess : Prop :=
  ∀ (i : Instr) (s s' : State), (∀ r ∈ regsRead i, s.reg r = s'.reg r) → s' = { s with x := s'.x } →
    ∃ t t', exec i s = .next t ∧ exec i s' = .next t' ∧ t' = { t with x := t'.x } ∧
      (∀ d, regWritten i = some d → t.reg d = t'.reg d) ∧
      ∀ r, regWritten i ≠ some r → t.reg r = s.reg r ∧ t'.reg r = s'.reg r

/-- No instruction reads C: two states that differ only in C go on differing only in C, under every list of host operations.
The spec marks it as derived (R25); that the host may act at every step boundary is D9 and D12, log 12. -/
def Obligations.CarryIsNeverRead : Prop :=
  ∀ (ops : List HostOp) (s s' : State), SameButCarry s s' →
    ∃ t t', runHost ops s = .next t ∧ runHost ops s' = .next t' ∧ SameButCarry t t'

/-- The outputs feed back into nothing: two states that differ only in the framebuffer and the segment value go on agreeing
in everything else, under every list of host operations (log 12). -/
def Obligations.OutputsAreNeverRead : Prop :=
  ∀ (ops : List HostOp) (s s' : State), SameButOutputs s s' →
    ∃ t t', runHost ops s = .next t ∧ runHost ops s' = .next t' ∧ SameButOutputs t t'

/-- The engine never writes program memory: any run in which the host performs no load, steps, resets and input writes at
any boundary, leaves every byte (R35). The free list of host operations is D9, D12 and D13, log 12; that a reset keeps
memory is the spec's decision D7 (R50, R136), log 5. -/
def Obligations.OnlyLoadWritesMemory : Prop :=
  ∀ (ops : List HostOp) (s t : State), (∀ op ∈ ops, op.isLoad = false) → runHost ops s = .next t → SameMemory s t

/-! Invariants. -/

/-- Every step, from every state with the invariant, keeps it, and so does every host operation and every list of them. -/
def Obligations.StepKeepsInv : Prop :=
  ∀ s : State, s.Inv → (∀ t, step s = .next t → t.Inv) ∧
    ∀ (ops : List HostOp) (t : State), runHost ops s = .next t → t.Inv

/-- The invariant holds after reset, and after power-on with any parameters and any canonical INIT_MEM. -/
def Obligations.InvAtReset : Prop :=
  State.reset.Inv ∧ ∀ (p : Params) (m : Memory), m.wf = true → (State.powerOn p m).Inv

/-- Two memories in canonical form that read alike at every address are equal: the model's own representation of the 256
bytes of 20_memory.md section 1 is exact. -/
def Obligations.CanonicalMemoriesEqual : Prop :=
  ∀ m n : Memory, m.wf = true → n.wf = true → (∀ a, a < 256 → m.read a = n.read a) → m = n

/-- Halt lasts: from a halted state, whatever the host does but reset, the engine changes nothing; the host may still write
x[15] and read; reset alone wakes the engine (R130). The host's operations are any list of them (D9, D12, D13, log 12); that
a load touches memory alone is the spec's decision D8, log 11; that H = 0 after a reset is its D6, log 6. -/
def Obligations.HaltLastsUntilReset : Prop :=
  ∀ s : State, Ended s →
    (∀ ops : List HostOp, (∀ op ∈ ops, op.isReset = false) → ∃ t, runHost ops s = .next t ∧ SameWhileHalted s t) ∧
    (∀ n : Nat, runHost (List.replicate n .step) s = .next s) ∧
    (∀ k : Input, ∃ t, hostOp (.writeInput k) s = .next t ∧ t.reg 15 = k.code) ∧
    (hostReply .readOutputs s s = .outputs s.fb s.seg) ∧
    ∃ t, hostOp .reset s = .next t ∧ t.h = false

/-! Runs. -/

/-- A jump to its own address never halts and changes nothing at all (43_control.md R109, corner case). The ignored nibble j
takes every value. That JMP keeps the flags is the spec's decision D5, log 8. -/
def Obligations.JumpToItselfForever : Prop :=
  ∀ (s : State) (j : RegIdx) (n : Nat), s.h = false → s.fetchWord.toNat = 0x8000 + j.toNat * 256 + s.pc.toNat →
    Host.Core.run Sys2Proof.core n s = .next s

/-- Where memory reads 0 everywhere, a run only advances pc by 2 each step, modulo 256, for ever (20_memory.md R51, which
the spec marks as derived). That NOP keeps the flags is the spec's decision D5, log 8. -/
def Obligations.ZeroMemoryRunsOn : Prop :=
  ∀ (s : State) (n : Nat), s.h = false → (∀ a, a < 256 → s.mem.read a = 0) →
    Host.Core.run Sys2Proof.core n s = .next { s with pc := BitVec.ofNat 8 ((s.pc.toNat + 2 * n) % 256) }

/-- Under every list of host operations a run goes on: the block never reports an error to the host. The free list is the
spec's D9, D12 and D13, log 12. -/
def Obligations.HostRunNeverFails : Prop :=
  ∀ (ops : List HostOp) (s : State), ∃ t, runHost ops s = .next t

/-! Host operations. Their names and their moments are the spec's decisions D8, D9, D11 and D13 (log 11, 12, 18). -/

/-- reset sets every item but memory; the values of the registers, pc, Z, C, H and seg are the spec's decision D6 and those
of the framebuffer its D10 (log 4, 6, 7); that memory is kept is its D7 (log 5). -/
def Obligations.ResetValues : Prop :=
  ∀ s : State, ∃ t, hostOp .reset s = .next t ∧ (∀ r : RegIdx, t.reg r = s.params.initRegs[r.toFin]) ∧
    t.pc = 0 ∧ t.z = false ∧ t.c = false ∧ t.h = false ∧ (∀ u v, t.cell u v = false) ∧ t.seg = 0 ∧
    SameMemory s t ∧ t.params = s.params

/-- The machine after power-on under the spec's default parameters, which are its decisions D4, D6 and D7 (log 3, 4, 5, 6,
7): every register, flag, cell and byte is 0, and ADI_FLAGS is MASKED. -/
def Obligations.PowerOnState : Prop :=
  (∀ r : RegIdx, State.reset.reg r = 0) ∧ State.reset.pc = 0 ∧ State.reset.z = false ∧ State.reset.c = false ∧
  State.reset.h = false ∧ (∀ u v, State.reset.cell u v = false) ∧ State.reset.seg = 0 ∧
  (∀ a, State.reset.mem.read a = 0) ∧ State.reset.params.adiFlags = .masked

/-- load puts byte i at address i, keeps every byte beyond its length and everything else; a sequence longer than 256 bytes
is refused by the loader with no change. Either way the block answers nothing (R133). The start address and the refusal are
the spec's decision D8, log 11. -/
def Obligations.LoadBytes : Prop :=
  ∀ (s : State) (b : List Byte), s.Inv →
    (b.length ≤ 256 → loaderAccepts b = true ∧ ∃ t, hostOp (.load b) s = .next t ∧ hostReply (.load b) s t = .nothing ∧
      (∀ a, a < 256 → t.mem.read a = b.getD a (s.mem.read a)) ∧ t = { s with mem := t.mem }) ∧
    (256 < b.length → loaderAccepts b = false ∧ hostOp (.load b) s = .next s ∧ hostReply (.load b) s s = .nothing)

/-- reset and load commute (R138, boot steps 2 and 3, from R136 and R49). It rests on two of the spec's decisions: a load
touches memory alone (D8, log 11, DESIGN CHOICE), and a reset keeps memory (D7, log 5). -/
def Obligations.ResetLoadCommute : Prop :=
  ∀ (s : State) (b : List Byte), runHost [.reset, .load b] s = runHost [.load b, .reset] s

/-- write_input sets x[15] to its code, 0 to 4, and nothing else, halted or not; of several keys held, down goes before
left, left before up, up before right. The moments are the spec's decision D9, log 12. -/
def Obligations.InputWrites : Prop :=
  (∀ (s : State) (k : Input), ∃ t, hostOp (.writeInput k) s = .next t ∧ t.reg 15 = k.code ∧ SameRegsBut 15 s t ∧
    SameFlags s t ∧ SameButRegsFlags s t) ∧
  (Input.none.code = 0 ∧ Input.up.code = 1 ∧ Input.left.code = 2 ∧ Input.down.code = 3 ∧ Input.right.code = 4) ∧
  ∀ up left right : Bool, Input.ofHeld up left true right = .down ∧ Input.ofHeld up true false right = .left ∧
    Input.ofHeld true false false right = .up ∧ Input.ofHeld false false false true = .right ∧
    Input.ofHeld false false false false = .none

/-- The reads change nothing and answer what they read; step answers whether H = 1; reset, load, however long, and
write_input answer nothing, so that no operation reports an error (R131, R133). The operations are the spec's decision D11,
log 18. -/
def Obligations.HostReadsAndReplies : Prop :=
  ∀ s : State, hostOp .readOutputs s = .next s ∧ hostOp .readState s = .next s ∧ hostOp .step s = step s ∧
    hostReply .readOutputs s s = .outputs s.fb s.seg ∧ hostReply .readState s s = .state s ∧
    ∀ t, hostReply .step s t = .halted t.h ∧ hostReply .reset s t = .nothing ∧
      (∀ b, hostReply (.load b) s t = .nothing) ∧ ∀ k, hostReply (.writeInput k) s t = .nothing

/-- An instruction placed for the next step is the one it fetches: the model's own interface, log 14. -/
def Obligations.PlacedInstructionIsFetched : Prop :=
  ∀ (s : State) (w : Nat), s.Inv → w < 65536 →
    (s.withFetchWord 16 w).fetchWord.toNat = w ∧ (s.withFetchWord 16 w).h = false ∧
    (s.withFetchWord 16 w).pc = s.pc ∧ (s.withFetchWord 16 w).Inv

/-! The scheduler, host state outside the block; its arithmetic is exact rationals, log 15. -/

/-- Running up to n steps counts each step performed while H = 0 and no other: the block took m steps, H was 0 before each of
them, the count is m more, m is n when the block has not halted, and a halted block takes none (R147). Where the block halts
on the way, the clauses on H fix m as the number of steps up to the halt, the HLT step included. -/
def Obligations.CyclesCountRunningSteps : Prop :=
  ∀ (n : Nat) (k : Scheduler), ∃ k' m, Scheduler.steps n k = .next k' ∧ m ≤ n ∧ k'.cycles = k.cycles + m ∧
    k'.last = k.last ∧ Host.Core.run Sys2Proof.core m k.block = .next k'.block ∧
    (∀ j, j < m → ∃ u, Host.Core.run Sys2Proof.core j k.block = .next u ∧ u.h = false) ∧
    (k'.block.h = false → m = n) ∧ (k.block.h = true → m = 0 ∧ k' = k)

/-- The timestamp advances by steps * (1/f), not to now; where the elapsed time is exactly n/f, exactly n steps are executed
and counted if the block does not halt, and the timestamp is now (R146: at 60 Hz, after 1 second, 60 steps). The exact
arithmetic is the model's choice, log 15. -/
def Obligations.SchedulerTimestamp : Prop :=
  ∀ (f now : Rat) (k : Scheduler), 0 < f → ∃ k', Scheduler.tick f now k = .next k' ∧
    k'.last = k.last + (⌊(now - k.last) / (1 / f)⌋.toNat : Rat) * (1 / f) ∧
    ∀ n : Nat, now - k.last = n / f → k'.last = now ∧
      (k'.block.h = false → Host.Core.run Sys2Proof.core n k.block = .next k'.block ∧ k'.cycles = k.cycles + n)

/-! The assembler, a toolchain outside the block; its lexical detail is the spec's D15 to D22 (log 16) and the model's
(log 17). -/

/-- An opcode with written operands is well-formed exactly when they are the operands of an instruction of that opcode:
nothing out of range is truncated into a field, and every instruction can be written (D18, D20 to D22, log 16). -/
def Obligations.BuildIffOperands : Prop :=
  ∀ (o : Opcode) (ops : List Operand) (i : Instr), o.build ops = .ok i ↔ (i.opcode = o ∧ i.operands = ops)

/-- Every label a successful pass 1 binds has an even address below 256 (20_memory.md R42; log 17). -/
def Obligations.LabelsResolveInsideMemory : Prop :=
  ∀ (text : List Char) (syms : Symbols) (pend : List PendingLine), pass1 (sourceLines text) 0 [] = .ok (syms, pend) →
    ∀ p ∈ syms, p.2 % 2 = 0 ∧ p.2 < 256

/-- A successful assembly yields two bytes an instruction, at most 256, and decoding them gives the instructions back
(log 16). -/
def Obligations.AssemblerOutput : Prop :=
  ∀ (text : List Char) (bytes : List Byte), assemble text = .ok bytes →
    ∃ is, assembleInstrs text = .ok is ∧ decodeAll bytes = .ok is ∧ bytes.length = 2 * is.length ∧ bytes.length ≤ 256

/-- An assembled text, loaded, is fetched as assembled: with pc at 2k the step decodes the k-th instruction (log 11, 16). -/
def Obligations.AssembledTextIsFetched : Prop :=
  ∀ (text : List Char) (bytes : List Byte) (s : State), s.Inv → assemble text = .ok bytes →
    ∃ is t, assembleInstrs text = .ok is ∧ hostOp (.load bytes) s = .next t ∧
      ∀ (k : Nat) (i : Instr), is[k]? = some i → decode ({ t with pc := BitVec.ofNat 8 (2 * k) } : State).fetchWord = i
end

