-- ==== Sys2Proof/Laws/Encoding.lean ====
section
/-! SUPPORT. The fields of a word written as its four nibbles, and the bytes of a word. -/

namespace Sys2Proof

/-- The word whose nibbles are op, a, b, c, most significant first (30_encoding.md R57). -/
abbrev nibbles (op a b c : BitVec 4) : Word := op ++ (a ++ b ++ c)

@[simp] theorem Word.op_nibbles (op a b c : BitVec 4) : Word.op (nibbles op a b c) = op := by
  ext i hi
  simp only [Word.op, BitVec.getElem_extractLsb', BitVec.getLsbD_append]
  rw [if_neg (by omega), show 12 + i - (4 + 4 + 4) = i by omega]
  exact BitVec.getLsbD_eq_getElem hi

@[simp] theorem Word.a_nibbles (op a b c : BitVec 4) : Word.a (nibbles op a b c) = a := by
  ext i hi
  simp only [Word.a, BitVec.getElem_extractLsb', BitVec.getLsbD_append]
  rw [if_pos (by omega), if_neg (by omega), if_neg (by omega), show 8 + i - 4 - 4 = i by omega]
  exact BitVec.getLsbD_eq_getElem hi

@[simp] theorem Word.b_nibbles (op a b c : BitVec 4) : Word.b (nibbles op a b c) = b := by
  ext i hi
  simp only [Word.b, BitVec.getElem_extractLsb', BitVec.getLsbD_append]
  rw [if_pos (by omega), if_neg (by omega), if_pos (by omega), show 4 + i - 4 = i by omega]
  exact BitVec.getLsbD_eq_getElem hi

@[simp] theorem Word.c_nibbles (op a b c : BitVec 4) : Word.c (nibbles op a b c) = c := by
  ext i hi
  simp only [Word.c, BitVec.getElem_extractLsb', BitVec.getLsbD_append]
  rw [if_pos (by omega), if_pos (by omega), show 0 + i = i by omega]
  exact BitVec.getLsbD_eq_getElem hi

@[simp] theorem Word.imm8_nibbles (op a b c : BitVec 4) : Word.imm8 (nibbles op a b c) = b ++ c := by
  refine BitVec.eq_of_getLsbD_eq fun i hi => ?_
  simp only [Word.imm8, BitVec.getLsbD_extractLsb', BitVec.getLsbD_append, Nat.zero_add, hi, decide_true, Bool.true_and]
  rw [if_pos (by omega)]
  split
  · rfl
  · rw [if_pos (by omega)]

/-- Every word is made of its four nibbles. -/
theorem Word.eq_nibbles (w : Word) : w = nibbles (Word.op w) (Word.a w) (Word.b w) (Word.c w) := by
  refine BitVec.eq_of_getLsbD_eq fun i hi => ?_
  simp only [nibbles, Word.op, Word.a, Word.b, Word.c, BitVec.getLsbD_append, BitVec.getLsbD_extractLsb']
  split
  · split
    · simp_all
    · split
      · simp_all [show 4 + (i - 4) = i by omega]
      · simp_all [show 8 + (i - 4 - 4) = i by omega, show i - 4 - 4 < 4 by omega]
  · simp_all [show 12 + (i - (4 + 4 + 4)) = i by omega, show i - (4 + 4 + 4) < 4 by omega]

/-- A word as a number, from its nibbles (30_encoding.md R57). -/
theorem nibbles_toNat (op a b c : BitVec 4) :
    (nibbles op a b c).toNat = op.toNat * 4096 + a.toNat * 256 + b.toNat * 16 + c.toNat := by
  have h2 := b.isLt
  have h3 := c.isLt
  have e1 : (a ++ b).toNat = a.toNat * 16 + b.toNat := by
    rw [BitVec.toNat_append, ← Nat.shiftLeft_add_eq_or_of_lt h2, Nat.shiftLeft_eq]
  have e2 : (a ++ b ++ c).toNat = (a ++ b).toNat * 16 + c.toNat := by
    rw [BitVec.toNat_append, ← Nat.shiftLeft_add_eq_or_of_lt h3, Nat.shiftLeft_eq]
  have e3 : (nibbles op a b c).toNat = op.toNat * 4096 + (a ++ b ++ c).toNat := by
    rw [BitVec.toNat_append, ← Nat.shiftLeft_add_eq_or_of_lt (a ++ b ++ c).isLt, Nat.shiftLeft_eq]
  rw [e3, e2, e1]
  ring

/-- A word is its byte 1 followed by its byte 2 (30_encoding.md R54). -/
@[simp] theorem wordOfBytes_bytes (w : Word) : wordOfBytes (Word.byte1 w) (Word.byte2 w) = w := by
  refine BitVec.eq_of_getLsbD_eq fun i hi => ?_
  simp only [wordOfBytes, Word.byte1, Word.byte2, BitVec.getLsbD_append, BitVec.getLsbD_extractLsb']
  split
  · simp_all
  · simp_all [show 8 + (i - 8) = i by omega, show i - 8 < 8 by omega]

/-- Reading the bytes an instruction is encoded in gives its word back. -/
theorem decodeBytes_encodeBytes (i : Instr) (rest : List Byte) :
    decodeBytes (encodeBytes i ++ rest) = .ok (decode (encode i), rest) := by
  simp [encodeBytes, decodeBytes]

/-- The opcode of a decoded word is the one its opcode field selects (30_encoding.md R68). -/
theorem opcode_decode (w : Word) : (decode w).opcode = Opcode.ofField (Word.op w) := by
  unfold decode
  split <;> simp_all [Instr.opcode]

/-- The opcode field of an opcode selects that opcode (30_encoding.md R68). -/
@[simp] theorem Opcode.ofField_field (o : Opcode) : Opcode.ofField o.field = o := by
  cases o <;> rfl

/-- The field of the opcode a field selects is that field (30_encoding.md R68). -/
@[simp] theorem Opcode.field_ofField (f : BitVec 4) : (Opcode.ofField f).field = f := by
  revert f; decide

/-- The opcode field of an encoded instruction is that of its opcode. -/
@[simp] theorem Word.op_encode (i : Instr) : Word.op (encode i) = i.opcode.field := by
  ext j hj
  simp only [Word.op, encode, BitVec.getElem_extractLsb', BitVec.getLsbD_append]
  rw [if_neg (by omega), show 12 + j - 12 = j by omega]
  exact BitVec.getLsbD_eq_getElem hj

end Sys2Proof
end

