-- ==== Sys2Proof/Laws/Memory.lean ====
section
/-! SUPPORT. The laws of program memory: what a write does to every read, and that every operation keeps the canonical
form. -/

namespace Sys2Proof.Machine

/-- Every listed address of a canonical memory is at or above its lower bound, so a lower address is unlisted. -/
theorem Memory.lookup_below {m : Memory} {lo a : Nat} (h : m.wfFrom lo = true) (ha : a < lo) :
    m.lookup a = Config.unlistedByte := by
  induction m generalizing lo with
  | nil => rfl
  | cons p rest ih =>
    obtain ⟨k, v⟩ := p
    simp only [Memory.wfFrom, Bool.and_eq_true, decide_eq_true_eq] at h
    have hk : k ≠ a := by omega
    simp only [Memory.lookup, hk, if_false]
    exact ih h.2 (by omega)

/-- The canonical form above a bound is the canonical form above any smaller bound. -/
theorem Memory.wfFrom_mono {m : Memory} {lo lo' : Nat} (h : m.wfFrom lo = true) (hl : lo' ≤ lo) :
    m.wfFrom lo' = true := by
  cases m with
  | nil => rfl
  | cons p rest =>
    obtain ⟨k, v⟩ := p
    simp only [Memory.wfFrom, Bool.and_eq_true, decide_eq_true_eq] at h ⊢
    exact ⟨⟨⟨by omega, h.1.1.2⟩, h.1.2⟩, h.2⟩

/-- Everything put does to the reads of a canonical memory. -/
theorem Memory.lookup_put {m : Memory} {lo : Nat} (h : m.wfFrom lo = true) (a b : Nat) (v : Byte) :
    (m.put a v).lookup b = if b = a then v else m.lookup b := by
  induction m generalizing lo with
  | nil =>
    by_cases hv : v = Config.unlistedByte <;> by_cases hb : b = a <;>
      simp [Memory.put, Memory.lookup, hv, hb, eq_comm (a := a)]
  | cons p rest ih =>
    obtain ⟨k, w⟩ := p
    simp only [Memory.wfFrom, Bool.and_eq_true, decide_eq_true_eq] at h
    have ih' := ih h.2
    have low : ∀ c, c ≤ k → Memory.lookup rest c = Config.unlistedByte :=
      fun c hc => Memory.lookup_below h.2 (by omega)
    simp only [Memory.put]
    by_cases h1 : a < k
    · by_cases hb : b = a
      · subst hb
        by_cases hv : v = Config.unlistedByte
        · simp [h1, hv, Memory.lookup, show k ≠ b by omega, low b (by omega)]
        · simp [h1, hv, Memory.lookup]
      · by_cases hv : v = Config.unlistedByte <;> simp [h1, hv, hb, Memory.lookup, Ne.symm hb]
    · by_cases h2 : a = k
      · subst h2
        by_cases hb : b = a
        · subst hb
          by_cases hv : v = Config.unlistedByte
          · simp [hv, low b (le_refl b)]
          · simp [hv, Memory.lookup]
        · by_cases hv : v = Config.unlistedByte <;> simp [hv, hb, Memory.lookup, Ne.symm hb]
      · by_cases hb : k = b
        · subst hb
          simp [h1, h2, Memory.lookup, Ne.symm h2]
        · simp [h1, h2, Memory.lookup, hb, ih']

/-- put keeps the canonical form. -/
theorem Memory.wfFrom_put {m : Memory} {lo : Nat} (h : m.wfFrom lo = true) {a : Nat} (v : Byte) (ha : lo ≤ a)
    (ham : a < Config.memSize) : (m.put a v).wfFrom lo = true := by
  induction m generalizing lo with
  | nil =>
    by_cases hv : v = Config.unlistedByte <;> simp [Memory.put, Memory.wfFrom, hv, ha]
    exact ham
  | cons p rest ih =>
    obtain ⟨k, w⟩ := p
    have h' := h
    simp only [Memory.wfFrom, Bool.and_eq_true, decide_eq_true_eq] at h
    obtain ⟨⟨⟨h1, h2⟩, h3⟩, h4⟩ := h
    simp only [Memory.put]
    split
    · split
      · exact h'
      · next hv =>
        simp only [Memory.wfFrom, Bool.and_eq_true, decide_eq_true_eq]
        exact ⟨⟨⟨ha, ham⟩, hv⟩, ⟨⟨by omega, h2⟩, h3⟩, h4⟩
    · split
      · next he =>
        split
        · exact Memory.wfFrom_mono h4 (by omega)
        · next hv =>
          simp only [Memory.wfFrom, Bool.and_eq_true, decide_eq_true_eq]
          exact ⟨⟨⟨ha, ham⟩, hv⟩, he ▸ h4⟩
      · simp only [Memory.wfFrom, Bool.and_eq_true, decide_eq_true_eq]
        exact ⟨⟨⟨h1, h2⟩, h3⟩, ih h4 (by omega)⟩

/-- Everything a write does to the reads of a canonical memory: the byte at the address modulo 256 is the one written,
and every other byte is as it was (20_memory.md R33). -/
theorem Memory.read_write {m : Memory} (h : m.wf = true) (a b : Nat) (v : Byte) :
    (m.write a v).read b = if b % Config.memSize = a % Config.memSize then v else m.read b :=
  Memory.lookup_put h _ _ v

/-- A write keeps the canonical form. -/
theorem Memory.wf_write {m : Memory} (h : m.wf = true) (a : Nat) (v : Byte) : (m.write a v).wf = true :=
  Memory.wfFrom_put h v (Nat.zero_le _) (Nat.mod_lt _ (by decide))

/-- A sequence of writes keeps the canonical form. -/
theorem Memory.wf_writeFrom {m : Memory} (h : m.wf = true) (a : Nat) (b : List Byte) : (m.writeFrom a b).wf = true := by
  induction b generalizing m a with
  | nil => exact h
  | cons v rest ih => exact ih (Memory.wf_write h a v) (a + 1)

/-- Reset memory has the canonical form. -/
theorem State.reset_mem_wf : State.reset.mem.wf = true := rfl

/-- Placing an instruction keeps the canonical form. -/
theorem State.withFetchWord_mem_wf {s : State} (h : s.mem.wf = true) (nbits w : Nat) :
    (s.withFetchWord nbits w).mem.wf = true :=
  Memory.wf_write (Memory.wf_write h _ _) _ _

end Sys2Proof.Machine
end

