-- ==== Sys2Proof/Laws/State.lean ====
section
/-! SUPPORT. What each update of State does to each field, one lemma per field per update. -/

namespace Sys2Proof.Machine

@[simp] theorem State.setReg_x (s : State) (i : RegIdx) (v : Byte) : (s.setReg i v).x = s.x.set i.toNat v i.isLt := rfl
@[simp] theorem State.setReg_pc (s : State) (i : RegIdx) (v : Byte) : (s.setReg i v).pc = s.pc := rfl
@[simp] theorem State.setReg_z (s : State) (i : RegIdx) (v : Byte) : (s.setReg i v).z = s.z := rfl
@[simp] theorem State.setReg_c (s : State) (i : RegIdx) (v : Byte) : (s.setReg i v).c = s.c := rfl
@[simp] theorem State.setReg_h (s : State) (i : RegIdx) (v : Byte) : (s.setReg i v).h = s.h := rfl
@[simp] theorem State.setReg_fb (s : State) (i : RegIdx) (v : Byte) : (s.setReg i v).fb = s.fb := rfl
@[simp] theorem State.setReg_seg (s : State) (i : RegIdx) (v : Byte) : (s.setReg i v).seg = s.seg := rfl
@[simp] theorem State.setReg_mem (s : State) (i : RegIdx) (v : Byte) : (s.setReg i v).mem = s.mem := rfl
@[simp] theorem State.setReg_params (s : State) (i : RegIdx) (v : Byte) : (s.setReg i v).params = s.params := rfl

@[simp] theorem State.setPc_x (s : State) (t : Byte) : (s.setPc t).x = s.x := rfl
@[simp] theorem State.setPc_pc (s : State) (t : Byte) : (s.setPc t).pc = t := rfl
@[simp] theorem State.setPc_z (s : State) (t : Byte) : (s.setPc t).z = s.z := rfl
@[simp] theorem State.setPc_c (s : State) (t : Byte) : (s.setPc t).c = s.c := rfl
@[simp] theorem State.setPc_h (s : State) (t : Byte) : (s.setPc t).h = s.h := rfl
@[simp] theorem State.setPc_fb (s : State) (t : Byte) : (s.setPc t).fb = s.fb := rfl
@[simp] theorem State.setPc_seg (s : State) (t : Byte) : (s.setPc t).seg = s.seg := rfl
@[simp] theorem State.setPc_mem (s : State) (t : Byte) : (s.setPc t).mem = s.mem := rfl
@[simp] theorem State.setPc_params (s : State) (t : Byte) : (s.setPc t).params = s.params := rfl

@[simp] theorem State.setFlags_x (s : State) (zf cf : Bool) : (s.setFlags zf cf).x = s.x := rfl
@[simp] theorem State.setFlags_pc (s : State) (zf cf : Bool) : (s.setFlags zf cf).pc = s.pc := rfl
@[simp] theorem State.setFlags_z (s : State) (zf cf : Bool) : (s.setFlags zf cf).z = zf := rfl
@[simp] theorem State.setFlags_c (s : State) (zf cf : Bool) : (s.setFlags zf cf).c = cf := rfl
@[simp] theorem State.setFlags_h (s : State) (zf cf : Bool) : (s.setFlags zf cf).h = s.h := rfl
@[simp] theorem State.setFlags_fb (s : State) (zf cf : Bool) : (s.setFlags zf cf).fb = s.fb := rfl
@[simp] theorem State.setFlags_seg (s : State) (zf cf : Bool) : (s.setFlags zf cf).seg = s.seg := rfl
@[simp] theorem State.setFlags_mem (s : State) (zf cf : Bool) : (s.setFlags zf cf).mem = s.mem := rfl
@[simp] theorem State.setFlags_params (s : State) (zf cf : Bool) : (s.setFlags zf cf).params = s.params := rfl

@[simp] theorem State.halt_x (s : State) : s.halt.x = s.x := rfl
@[simp] theorem State.halt_pc (s : State) : s.halt.pc = s.pc := rfl
@[simp] theorem State.halt_z (s : State) : s.halt.z = s.z := rfl
@[simp] theorem State.halt_c (s : State) : s.halt.c = s.c := rfl
@[simp] theorem State.halt_h (s : State) : s.halt.h = true := rfl
@[simp] theorem State.halt_fb (s : State) : s.halt.fb = s.fb := rfl
@[simp] theorem State.halt_seg (s : State) : s.halt.seg = s.seg := rfl
@[simp] theorem State.halt_mem (s : State) : s.halt.mem = s.mem := rfl
@[simp] theorem State.halt_params (s : State) : s.halt.params = s.params := rfl

@[simp] theorem State.setSeg_x (s : State) (v : Byte) : (s.setSeg v).x = s.x := rfl
@[simp] theorem State.setSeg_pc (s : State) (v : Byte) : (s.setSeg v).pc = s.pc := rfl
@[simp] theorem State.setSeg_z (s : State) (v : Byte) : (s.setSeg v).z = s.z := rfl
@[simp] theorem State.setSeg_c (s : State) (v : Byte) : (s.setSeg v).c = s.c := rfl
@[simp] theorem State.setSeg_h (s : State) (v : Byte) : (s.setSeg v).h = s.h := rfl
@[simp] theorem State.setSeg_fb (s : State) (v : Byte) : (s.setSeg v).fb = s.fb := rfl
@[simp] theorem State.setSeg_seg (s : State) (v : Byte) : (s.setSeg v).seg = v := rfl
@[simp] theorem State.setSeg_mem (s : State) (v : Byte) : (s.setSeg v).mem = s.mem := rfl
@[simp] theorem State.setSeg_params (s : State) (v : Byte) : (s.setSeg v).params = s.params := rfl

@[simp] theorem State.toggleCell_x (s : State) (u v : Fin 24) : (s.toggleCell u v).x = s.x := rfl
@[simp] theorem State.toggleCell_pc (s : State) (u v : Fin 24) : (s.toggleCell u v).pc = s.pc := rfl
@[simp] theorem State.toggleCell_z (s : State) (u v : Fin 24) : (s.toggleCell u v).z = s.z := rfl
@[simp] theorem State.toggleCell_c (s : State) (u v : Fin 24) : (s.toggleCell u v).c = s.c := rfl
@[simp] theorem State.toggleCell_h (s : State) (u v : Fin 24) : (s.toggleCell u v).h = s.h := rfl
@[simp] theorem State.toggleCell_fb (s : State) (u v : Fin 24) : (s.toggleCell u v).fb = s.fb.set u ((s.fb[u]).set v (!(s.fb[u][v]))) := rfl
@[simp] theorem State.toggleCell_seg (s : State) (u v : Fin 24) : (s.toggleCell u v).seg = s.seg := rfl
@[simp] theorem State.toggleCell_mem (s : State) (u v : Fin 24) : (s.toggleCell u v).mem = s.mem := rfl
@[simp] theorem State.toggleCell_params (s : State) (u v : Fin 24) : (s.toggleCell u v).params = s.params := rfl

@[simp] theorem State.advancePc_x (s : State) : s.advancePc.x = s.x := rfl
@[simp] theorem State.advancePc_pc (s : State) : s.advancePc.pc = s.pc + 2 := rfl
@[simp] theorem State.advancePc_z (s : State) : s.advancePc.z = s.z := rfl
@[simp] theorem State.advancePc_c (s : State) : s.advancePc.c = s.c := rfl
@[simp] theorem State.advancePc_h (s : State) : s.advancePc.h = s.h := rfl
@[simp] theorem State.advancePc_fb (s : State) : s.advancePc.fb = s.fb := rfl
@[simp] theorem State.advancePc_seg (s : State) : s.advancePc.seg = s.seg := rfl
@[simp] theorem State.advancePc_mem (s : State) : s.advancePc.mem = s.mem := rfl
@[simp] theorem State.advancePc_params (s : State) : s.advancePc.params = s.params := rfl

@[simp] theorem State.writeResult_x (s : State) (d : RegIdx) (res : Byte) (zf cf : Bool) : (s.writeResult d res zf cf).x = s.x.set d.toNat res d.isLt := rfl
@[simp] theorem State.writeResult_pc (s : State) (d : RegIdx) (res : Byte) (zf cf : Bool) : (s.writeResult d res zf cf).pc = s.pc := rfl
@[simp] theorem State.writeResult_z (s : State) (d : RegIdx) (res : Byte) (zf cf : Bool) : (s.writeResult d res zf cf).z = zf := rfl
@[simp] theorem State.writeResult_c (s : State) (d : RegIdx) (res : Byte) (zf cf : Bool) : (s.writeResult d res zf cf).c = cf := rfl
@[simp] theorem State.writeResult_h (s : State) (d : RegIdx) (res : Byte) (zf cf : Bool) : (s.writeResult d res zf cf).h = s.h := rfl
@[simp] theorem State.writeResult_fb (s : State) (d : RegIdx) (res : Byte) (zf cf : Bool) : (s.writeResult d res zf cf).fb = s.fb := rfl
@[simp] theorem State.writeResult_seg (s : State) (d : RegIdx) (res : Byte) (zf cf : Bool) : (s.writeResult d res zf cf).seg = s.seg := rfl
@[simp] theorem State.writeResult_mem (s : State) (d : RegIdx) (res : Byte) (zf cf : Bool) : (s.writeResult d res zf cf).mem = s.mem := rfl
@[simp] theorem State.writeResult_params (s : State) (d : RegIdx) (res : Byte) (zf cf : Bool) : (s.writeResult d res zf cf).params = s.params := rfl

@[simp] theorem State.hostReset_x (s : State) : s.hostReset.x = s.params.initRegs := rfl
@[simp] theorem State.hostReset_pc (s : State) : s.hostReset.pc = 0 := rfl
@[simp] theorem State.hostReset_z (s : State) : s.hostReset.z = false := rfl
@[simp] theorem State.hostReset_c (s : State) : s.hostReset.c = false := rfl
@[simp] theorem State.hostReset_h (s : State) : s.hostReset.h = false := rfl
@[simp] theorem State.hostReset_fb (s : State) : s.hostReset.fb = State.blankFb := rfl
@[simp] theorem State.hostReset_seg (s : State) : s.hostReset.seg = 0 := rfl
@[simp] theorem State.hostReset_mem (s : State) : s.hostReset.mem = s.mem := rfl
@[simp] theorem State.hostReset_params (s : State) : s.hostReset.params = s.params := rfl

@[simp] theorem State.writeInput_x (s : State) (k : Input) : (s.writeInput k).x = s.x.set 15 k.code := rfl
@[simp] theorem State.writeInput_pc (s : State) (k : Input) : (s.writeInput k).pc = s.pc := rfl
@[simp] theorem State.writeInput_z (s : State) (k : Input) : (s.writeInput k).z = s.z := rfl
@[simp] theorem State.writeInput_c (s : State) (k : Input) : (s.writeInput k).c = s.c := rfl
@[simp] theorem State.writeInput_h (s : State) (k : Input) : (s.writeInput k).h = s.h := rfl
@[simp] theorem State.writeInput_fb (s : State) (k : Input) : (s.writeInput k).fb = s.fb := rfl
@[simp] theorem State.writeInput_seg (s : State) (k : Input) : (s.writeInput k).seg = s.seg := rfl
@[simp] theorem State.writeInput_mem (s : State) (k : Input) : (s.writeInput k).mem = s.mem := rfl
@[simp] theorem State.writeInput_params (s : State) (k : Input) : (s.writeInput k).params = s.params := rfl

/-- A read after a write of the same register gives the value written. -/
@[simp] theorem State.reg_setReg_same (s : State) (i : RegIdx) (v : Byte) : (s.setReg i v).reg i = v := by
  simp [State.reg]

/-- A write of a register leaves every other register alone. -/
theorem State.reg_setReg_ne (s : State) {i j : RegIdx} (v : Byte) (h : j ≠ i) : (s.setReg i v).reg j = s.reg j := by
  have hn : i.toNat ≠ j.toNat := fun e => h (BitVec.eq_of_toNat_eq e.symm)
  simp [State.reg, hn]

/-- Everything a register write does to the registers. -/
theorem State.reg_setReg (s : State) (i j : RegIdx) (v : Byte) :
    (s.setReg i v).reg j = if j = i then v else s.reg j := by
  split
  · next h => subst h; exact s.reg_setReg_same j v
  · next h => exact s.reg_setReg_ne v h

@[simp] theorem State.reg_setPc (s : State) (t : Byte) (i : RegIdx) : (s.setPc t).reg i = s.reg i := rfl
@[simp] theorem State.reg_setFlags (s : State) (zf cf : Bool) (i : RegIdx) : (s.setFlags zf cf).reg i = s.reg i := rfl
@[simp] theorem State.reg_halt (s : State) (i : RegIdx) : s.halt.reg i = s.reg i := rfl
@[simp] theorem State.reg_setSeg (s : State) (v : Byte) (i : RegIdx) : (s.setSeg v).reg i = s.reg i := rfl
@[simp] theorem State.reg_toggleCell (s : State) (u v : Fin 24) (i : RegIdx) : (s.toggleCell u v).reg i = s.reg i := rfl
@[simp] theorem State.reg_advancePc (s : State) (i : RegIdx) : s.advancePc.reg i = s.reg i := rfl

/-- Everything writing a result does to the registers. -/
theorem State.reg_writeResult (s : State) (d j : RegIdx) (res : Byte) (zf cf : Bool) :
    (s.writeResult d res zf cf).reg j = if j = d then res else s.reg j := by
  simpa [State.writeResult] using s.reg_setReg d j res

@[simp] theorem State.reg_writeResult_same (s : State) (d : RegIdx) (res : Byte) (zf cf : Bool) :
    (s.writeResult d res zf cf).reg d = res := by
  simp [State.reg_writeResult]

/-- Everything a toggle does to the framebuffer: one cell is inverted. -/
theorem State.cell_toggleCell (s : State) (u v p q : Fin 24) :
    (s.toggleCell u v).cell p q = if p = u ∧ q = v then !s.cell p q else s.cell p q := by
  by_cases hu : u = p
  · subst hu
    by_cases hv : v = q
    · subst hv; simp [State.cell]
    · have hv' : v.val ≠ q.val := fun e => hv (Fin.ext e)
      simp [State.cell, hv', Ne.symm hv]
  · have hu' : u.val ≠ p.val := fun e => hu (Fin.ext e)
    simp [State.cell, hu', Ne.symm hu]

/-- Two states with the same registers, read one by one, have the same register file. -/
theorem State.x_ext {s t : State} (h : ∀ r : RegIdx, s.reg r = t.reg r) : s.x = t.x := by
  ext1 i hi
  exact h (BitVec.ofFin ⟨i, hi⟩)

end Sys2Proof.Machine
end

