-- ==== Sys2Proof/Laws/Ops.lean ====
section
/-! SUPPORT. One lemma for each shared operation and each meaning, saying once what it does. -/

namespace Sys2Proof.Machine

/-- mask8 is reduction modulo 256, of negative values too (00_scope.md R9). -/
theorem mask8_toNat (v : Int) : ((mask8 v).toNat : Int) = v % 256 := by
  have h0 : 0 ≤ v % 256 := Int.emod_nonneg v (by decide)
  have h1 : v % 256 < 256 := Int.emod_lt_of_pos v (by decide)
  simp only [mask8, BitVec.toNat_ofNat]
  omega

/-- A source register as an integer lies in 0..255. -/
theorem State.regInt_range (s : State) (i : RegIdx) : 0 ≤ s.regInt i ∧ s.regInt i ≤ 255 := by
  have := (s.reg i).isLt
  simp only [State.regInt]
  omega

@[simp] theorem plotCoord_val (v : Byte) : (plotCoord v).val = v.toNat % 24 := rfl

@[simp] theorem zeroOf_eq (res : Byte) : zeroOf res = decide (res = 0) := by
  simp [zeroOf, BEq.beq]

/-- The word of two bytes as a number (30_encoding.md R54). -/
theorem wordOfBytes_toNat (b1 b2 : Byte) : (wordOfBytes b1 b2).toNat = b1.toNat * 256 + b2.toNat := by
  have h1 := b1.isLt
  have h2 := b2.isLt
  simp only [wordOfBytes, BitVec.toNat_append]
  rw [← Nat.shiftLeft_add_eq_or_of_lt h2, Nat.shiftLeft_eq]

/-- The fetched word depends on memory and pc alone. -/
theorem State.fetchWord_congr {s t : State} (hm : s.mem = t.mem) (hp : s.pc = t.pc) : s.fetchWord = t.fetchWord := by
  simp only [State.fetchWord, hm, hp]

/-- The loader accepts a sequence exactly when memory can hold it (20_memory.md R49). -/
@[simp] theorem loaderAccepts_iff {b : List Byte} : loaderAccepts b = true ↔ b.length ≤ 256 := by
  simp [loaderAccepts, Config.memSize]

/-- What a load of at most 256 bytes leaves: the bytes written, nothing else changed (20_memory.md R49). -/
theorem State.load_of_le {s : State} {b : List Byte} (h : b.length ≤ 256) :
    s.load b = { s with mem := s.mem.writeFrom 0 b } := if_pos (loaderAccepts_iff.mpr h)

/-- A longer load changes nothing (20_memory.md R49). -/
theorem State.load_of_gt {s : State} {b : List Byte} (h : 256 < b.length) : s.load b = s :=
  if_neg (by simpa using h)

/-! The execute phase, instruction by instruction. -/

@[simp] theorem exec_nop (s : State) : exec .nop s = .next s := rfl
@[simp] theorem exec_hlt (s : State) : exec .hlt s = .next s.halt := rfl
@[simp] theorem exec_add (a b c : RegIdx) (s : State) : exec (.add a b c) s =
    .next (s.writeResult c (mask8 (s.regInt a + s.regInt b)) (zeroOf (mask8 (s.regInt a + s.regInt b)))
      (carryOf (s.regInt a + s.regInt b))) := rfl
@[simp] theorem exec_sub (a b c : RegIdx) (s : State) : exec (.sub a b c) s =
    .next (s.writeResult c (mask8 (s.regInt a - s.regInt b)) (zeroOf (mask8 (s.regInt a - s.regInt b)))
      (borrowOf (s.regInt a - s.regInt b))) := rfl
@[simp] theorem exec_and (a b c : RegIdx) (s : State) :
    exec (.and a b c) s = .next (s.writeLogic c (s.reg a &&& s.reg b)) := rfl
@[simp] theorem exec_or (a b c : RegIdx) (s : State) :
    exec (.or a b c) s = .next (s.writeLogic c (s.reg a ||| s.reg b)) := rfl
@[simp] theorem exec_xor (a b c : RegIdx) (s : State) :
    exec (.xor a b c) s = .next (s.writeLogic c (s.reg a ^^^ s.reg b)) := rfl
@[simp] theorem exec_nor (a b c : RegIdx) (s : State) :
    exec (.nor a b c) s = .next (s.writeLogic c (~~~(s.reg a ||| s.reg b))) := rfl
@[simp] theorem exec_jmp (addr : Byte) (s : State) : exec (.jmp addr) s = .next (s.setPc addr) := rfl
@[simp] theorem exec_rsh (a c : RegIdx) (s : State) :
    exec (.rsh a c) s = .next (s.writeLogic c (s.reg a >>> 1)) := rfl
@[simp] theorem exec_lsh (a c : RegIdx) (s : State) :
    exec (.lsh a c) s = .next (s.writeLogic c (mask8 (2 * s.regInt a))) := rfl
@[simp] theorem exec_ldi (a : RegIdx) (imm : Byte) (s : State) : exec (.ldi a imm) s = .next (s.setReg a imm) := rfl
@[simp] theorem exec_adi (a : RegIdx) (imm : Byte) (s : State) : exec (.adi a imm) s =
    .next (s.writeResult a (mask8 (s.regInt a + immInt imm))
      (adiZero s.params.adiFlags (s.regInt a + immInt imm) (mask8 (s.regInt a + immInt imm)))
      (adiCarry s.params.adiFlags (s.regInt a + immInt imm))) := rfl
@[simp] theorem exec_brz (addr : Byte) (s : State) :
    exec (.brz addr) s = .next (if s.z then s.setPc addr else s) := rfl
@[simp] theorem exec_plt (a b : RegIdx) (s : State) :
    exec (.plt a b) s = .next (s.toggleCell (plotCoord (s.reg a)) (plotCoord (s.reg b))) := rfl
@[simp] theorem exec_seg (a : RegIdx) (s : State) : exec (.seg a) s = .next (s.setSeg (s.reg a)) := rfl

/-- What a logic or shift instruction writes: the result, Z from it, C cleared (42_alu.md R98). -/
theorem State.writeLogic_eq (s : State) (d : RegIdx) (res : Byte) :
    s.writeLogic d res = s.writeResult d res (zeroOf res) false := rfl

end Sys2Proof.Machine
end

