-- ==== Sys2Proof/Laws/PerInstr.lean ====
section
/-! SUPPORT. Facts about every instruction as syntax, one lemma per constructor of Instr. -/

namespace Sys2Proof.Laws

/-- The shape of an encoded instruction: its opcode field is the one of the opcode map (30_encoding.md R68), every bit its
format ignores is 0 (R82), and it has as many written operands as its mnemonic takes (R76). -/
def EncodedShape.Statement (i : Instr) : Prop :=
  Word.op (encode i) = i.opcode.field ∧ encode i &&& ~~~i.opcode.readMask = 0 ∧
    i.operands.length = i.opcode.kinds.length

/-- A word that a mask covers has no bit outside it. -/
theorem and_not_eq_zero {w m : Word} (h : ∀ j, j < 16 → w.getLsbD j = true → m.getLsbD j = true) : w &&& ~~~m = 0 := by
  refine BitVec.eq_of_getLsbD_eq fun j hj => ?_
  have := h j hj
  simp only [BitVec.getLsbD_and, BitVec.getLsbD_not, hj, decide_true, Bool.true_and]
  cases hw : w.getLsbD j <;> simp_all

theorem EncodedShape.nop : EncodedShape.Statement (.nop) := by
  exact ⟨by decide, by decide, rfl⟩

theorem EncodedShape.hlt : EncodedShape.Statement (.hlt) := by
  exact ⟨by decide, by decide, rfl⟩

theorem EncodedShape.add (a b c : RegIdx) : EncodedShape.Statement (.add a b c) := by
  exact ⟨Word.op_encode _, by simp [Instr.opcode, Opcode.readMask], rfl⟩

theorem EncodedShape.sub (a b c : RegIdx) : EncodedShape.Statement (.sub a b c) := by
  exact ⟨Word.op_encode _, by simp [Instr.opcode, Opcode.readMask], rfl⟩

theorem EncodedShape.and (a b c : RegIdx) : EncodedShape.Statement (.and a b c) := by
  exact ⟨Word.op_encode _, by simp [Instr.opcode, Opcode.readMask], rfl⟩

theorem EncodedShape.or (a b c : RegIdx) : EncodedShape.Statement (.or a b c) := by
  exact ⟨Word.op_encode _, by simp [Instr.opcode, Opcode.readMask], rfl⟩

theorem EncodedShape.xor (a b c : RegIdx) : EncodedShape.Statement (.xor a b c) := by
  exact ⟨Word.op_encode _, by simp [Instr.opcode, Opcode.readMask], rfl⟩

theorem EncodedShape.nor (a b c : RegIdx) : EncodedShape.Statement (.nor a b c) := by
  exact ⟨Word.op_encode _, by simp [Instr.opcode, Opcode.readMask], rfl⟩

theorem EncodedShape.jmp (addr : Byte) : EncodedShape.Statement (.jmp addr) := by
  refine ⟨Word.op_encode _, and_not_eq_zero fun j hj hb => ?_, rfl⟩
  simp only [encode, Instr.operandField, Instr.opcode, Opcode.field, BitVec.getLsbD_append] at hb
  simp only [Instr.opcode, Opcode.readMask]
  interval_cases j <;> simp at hb ⊢

theorem EncodedShape.rsh (a c : RegIdx) : EncodedShape.Statement (.rsh a c) := by
  refine ⟨Word.op_encode _, and_not_eq_zero fun j hj hb => ?_, rfl⟩
  simp only [encode, Instr.operandField, Instr.opcode, Opcode.field, BitVec.getLsbD_append] at hb
  simp only [Instr.opcode, Opcode.readMask]
  interval_cases j <;> simp at hb ⊢

theorem EncodedShape.lsh (a c : RegIdx) : EncodedShape.Statement (.lsh a c) := by
  refine ⟨Word.op_encode _, and_not_eq_zero fun j hj hb => ?_, rfl⟩
  simp only [encode, Instr.operandField, Instr.opcode, Opcode.field, BitVec.getLsbD_append] at hb
  simp only [Instr.opcode, Opcode.readMask]
  interval_cases j <;> simp at hb ⊢

theorem EncodedShape.ldi (a : RegIdx) (imm : Byte) : EncodedShape.Statement (.ldi a imm) := by
  exact ⟨Word.op_encode _, by simp [Instr.opcode, Opcode.readMask], rfl⟩

theorem EncodedShape.adi (a : RegIdx) (imm : Byte) : EncodedShape.Statement (.adi a imm) := by
  exact ⟨Word.op_encode _, by simp [Instr.opcode, Opcode.readMask], rfl⟩

theorem EncodedShape.brz (addr : Byte) : EncodedShape.Statement (.brz addr) := by
  refine ⟨Word.op_encode _, and_not_eq_zero fun j hj hb => ?_, rfl⟩
  simp only [encode, Instr.operandField, Instr.opcode, Opcode.field, BitVec.getLsbD_append] at hb
  simp only [Instr.opcode, Opcode.readMask]
  interval_cases j <;> simp at hb ⊢

theorem EncodedShape.plt (a b : RegIdx) : EncodedShape.Statement (.plt a b) := by
  refine ⟨Word.op_encode _, and_not_eq_zero fun j hj hb => ?_, rfl⟩
  simp only [encode, Instr.operandField, Instr.opcode, Opcode.field, BitVec.getLsbD_append] at hb
  simp only [Instr.opcode, Opcode.readMask]
  interval_cases j <;> simp at hb ⊢

theorem EncodedShape.seg (a : RegIdx) : EncodedShape.Statement (.seg a) := by
  refine ⟨Word.op_encode _, and_not_eq_zero fun j hj hb => ?_, rfl⟩
  simp only [encode, Instr.operandField, Instr.opcode, Opcode.field, BitVec.getLsbD_append] at hb
  simp only [Instr.opcode, Opcode.readMask]
  interval_cases j <;> simp at hb ⊢

end Sys2Proof.Laws
end

