-- ==== Sys2Proof/Laws/Runs.lean ====
section
/-! SUPPORT. What one step and one link of a run can do, said once. -/

namespace Sys2Proof.Machine

/-- If a step answers a next state, either the machine was halted and the state is the same, or the fetched instruction
was executed in the advanced state (40_engine.md R86, R87). -/
theorem step_next_cases {s t : State} (h : step s = .next t) :
    (s.h = true ∧ t = s) ∨ (s.h = false ∧ exec (decode s.fetchWord) s.advancePc = .next t) := by
  unfold step at h
  split at h
  · next hh => exact .inl ⟨hh, by cases h; rfl⟩
  · next hh => exact .inr ⟨by simpa using hh, h⟩

/-- A run of n + 1 steps is a step and a run of n. -/
theorem core_run_succ {s t : State} {n : Nat} (h : step s = .next t) :
    Host.Core.run Sys2Proof.core (n + 1) s = Host.Core.run Sys2Proof.core n t := by
  have h' : Sys2Proof.core.step s = .next t := h
  simp only [Host.Core.run, h']

@[simp] theorem runHost_nil (s : State) : runHost [] s = .next s := rfl

/-- A run under a list of host operations is the first operation, then the rest. -/
theorem runHost_cons {op : HostOp} {ops : List HostOp} {s t : State} (h : hostOp op s = .next t) :
    runHost (op :: ops) s = runHost ops t := by
  simp [runHost, h]

@[simp] theorem hostOp_reset (s : State) : hostOp .reset s = .next s.hostReset := rfl
@[simp] theorem hostOp_load (b : List Byte) (s : State) : hostOp (.load b) s = .next (s.load b) := rfl
@[simp] theorem hostOp_step (s : State) : hostOp .step s = step s := rfl
@[simp] theorem hostOp_writeInput (k : Input) (s : State) : hostOp (.writeInput k) s = .next (s.writeInput k) := rfl

end Sys2Proof.Machine
end

