-- ==== Sys2Proof/Tests/Slice0.lean ====
section
/-! SUPPORT. Tests of the model against words and vectors of spec/95_test_vectors.md (named by their ids there) and of
spec/30_encoding.md, and one witness for each statement that has hypotheses. -/

namespace Sys2Proof.Tests

open Sys2Proof Sys2Proof.Machine

/-! Decoding: one word for each constructor, its bits written out from its pattern in 30_encoding.md R58 to R64. -/

theorem test_decode_nop : decode 0b0000_1010_1011_1100 = .nop := by decide
theorem test_decode_hlt : decode 0b0001_1111_1111_1111 = .hlt := by decide
theorem test_decode_add : decode 0b0010_0001_0010_0011 = .add 1 2 3 := by decide
theorem test_decode_sub : decode 0b0011_0100_0101_0110 = .sub 4 5 6 := by decide
theorem test_decode_and : decode 0b0100_0001_0010_0011 = .and 1 2 3 := by decide
theorem test_decode_or : decode 0b0101_1111_1111_0001 = .or 15 15 1 := by decide
theorem test_decode_xor : decode 0b0110_0100_0100_0101 = .xor 4 4 5 := by decide
theorem test_decode_nor : decode 0b0111_0001_0001_0010 = .nor 1 1 2 := by decide
theorem test_decode_jmp : decode 0b1000_1111_0100_0000 = .jmp 0x40 := by decide
theorem test_decode_rsh : decode 0b1001_1010_0101_0011 = .rsh 10 3 := by decide
theorem test_decode_lsh : decode 0b1010_0001_0000_0010 = .lsh 1 2 := by decide
theorem test_decode_ldi : decode 0b1011_0011_0010_1010 = .ldi 3 42 := by decide
theorem test_decode_adi : decode 0b1100_0010_1111_1011 = .adi 2 251 := by decide
theorem test_decode_brz : decode 0b1101_0101_0001_0010 = .brz 0x12 := by decide
theorem test_decode_plt : decode 0b1110_0100_0101_1111 = .plt 4 5 := by decide
theorem test_decode_seg : decode 0b1111_0001_1111_1111 = .seg 1 := by decide

/-- E12: the words of 95_test_vectors.md for SUB, PLT and RSH as the assembler emits them. -/
theorem test_encode : encode (.sub 1 2 3) = 0x3123 ∧ encode (.plt 0 1) = 0xE010 ∧ encode (.rsh 1 3) = 0x9103 := by decide

/-- A byte sequence too short to hold a word is refused by name (30_encoding.md R53). -/
theorem test_decode_refuses : decodeBytes [] = .error .noBytes ∧ decodeBytes [0x12] = .error .halfWord := by decide

/-! Well-formedness: an ill-formed term for each check (30_encoding.md R80; E2, E3, E5, E6). -/

theorem test_wf_operand_count : Opcode.build .add [.reg 1, .reg 2] = .error .operandCount := by decide
theorem test_wf_operand_kind : Opcode.build .ldi [.value 5, .reg 0] = .error .operandKind := by decide
theorem test_wf_register_range : Opcode.build .ldi [.reg 16, .value 1] = .error .registerRange := by decide
theorem test_wf_value_width : Opcode.build .ldi [.reg 0, .value 256] = .error .valueWidth := by decide
theorem test_wf_accepts : Opcode.wellFormed .ldi [.reg 15, .value 255] = true ∧
    Opcode.wellFormed .jmp [.reg 3] = false := by decide

/-! One step on a small state. -/

/-- The conventions of 95_test_vectors.md: the listed registers and flags set, pc at 0x10, everything else as reset. -/
def start (regs : List (RegIdx × Byte)) (z c : Bool) : State :=
  { regs.foldl (fun s p => s.setReg p.1 p.2) State.reset with pc := 0x10, z := z, c := c }

/-- The state after one step at which the word w is fetched. -/
def after (w : Nat) (s : State) : State :=
  match step (s.withFetchWord 16 w) with
  | .next t => t
  | .fault r => nomatch r
  | .refused _ => s

/-- A register, the flags and pc after a step. -/
def seen (r : RegIdx) (t : State) : Byte × Bool × Bool × Byte := (t.reg r, t.z, t.c, t.pc)

/-- S1 and S3: NOP keeps the flags; at the end of memory pc wraps to 1. -/
theorem test_nop : seen 0 (after 0x0000 (start [] true true)) = (0, true, true, 0x12) ∧
    (after 0x0000 { State.reset with pc := 0xFF }).pc = 1 := by decide
/-- S5: HLT advances pc and keeps the flags. -/
theorem test_hlt : seen 0 (after 0x1FFF (start [] true false)) = (0, true, false, 0x12) ∧
    (after 0x1FFF (start [] true false)).h = true := by decide
/-- A1, A2. -/
theorem test_add : seen 3 (after 0x2123 (start [(1, 200), (2, 100)] false false)) = (44, false, true, 0x12) ∧
    seen 3 (after 0x2123 (start [(1, 128), (2, 128)] false false)) = (0, true, true, 0x12) := by decide
/-- A6: the destination is also both sources. -/
theorem test_add_in_place : seen 1 (after 0x2111 (start [(1, 100)] false false)) = (200, false, false, 0x12) := by decide
/-- B3, B4. -/
theorem test_sub : seen 3 (after 0x3123 (start [(1, 0), (2, 255)] false false)) = (1, false, true, 0x12) ∧
    seen 3 (after 0x3123 (start [(1, 200), (2, 55)] true true)) = (145, false, false, 0x12) := by decide
/-- G1, G2. -/
theorem test_and : seen 3 (after 0x4123 (start [(1, 0xF0), (2, 0x3C)] false true)) = (0x30, false, false, 0x12) ∧
    seen 3 (after 0x4123 (start [(1, 0xF0), (2, 0x0F)] false true)) = (0, true, false, 0x12) := by decide
/-- G3. -/
theorem test_or : seen 3 (after 0x5123 (start [(1, 0xF0), (2, 0x0F)] false true)) = (0xFF, false, false, 0x12) := by decide
/-- G5, G6. -/
theorem test_xor : seen 3 (after 0x6123 (start [(1, 0xAA), (2, 0xFF)] false true)) = (0x55, false, false, 0x12) ∧
    seen 7 (after 0x6777 (start [(7, 0x5A)] false true)) = (0, true, false, 0x12) := by decide
/-- G7, G9. -/
theorem test_nor : seen 2 (after 0x7112 (start [(1, 0x81)] false false)) = (0x7E, false, false, 0x12) ∧
    seen 3 (after 0x7123 (start [(1, 0xFF)] false true)) = (0, true, false, 0x12) := by decide
/-- K2, K3. -/
theorem test_jmp : (after 0x80FF { State.reset with pc := 0 }).pc = 0xFF ∧
    (after 0x8F40 { State.reset with pc := 0 }).pc = 0x40 := by decide
/-- H1, H3. -/
theorem test_rsh : seen 3 (after 0x9103 (start [(1, 0x81)] false true)) = (0x40, false, false, 0x12) ∧
    seen 3 (after 0x9A53 (start [(10, 0xFF), (5, 0x12)] false false)) = (0x7F, false, false, 0x12) := by decide
/-- H4, H5: the bit shifted out is not reported. -/
theorem test_lsh : seen 2 (after 0xA102 (start [(1, 0x81)] false true)) = (2, false, false, 0x12) ∧
    seen 2 (after 0xA102 (start [(1, 0x80)] false true)) = (0, true, false, 0x12) := by decide
/-- I2 and L1-3: LDI never sets Z; the fetch at 255 takes byte 2 from address 0. -/
theorem test_ldi : seen 0 (after 0xB000 (start [(0, 9)] false false)) = (0, false, false, 0x12) ∧
    seen 3 (after 0xB32A { State.reset with pc := 0xFF }) = (42, false, false, 1) := by decide
/-- J3, J4, J5: the three readings of ADI_FLAGS at a raw sum of 256. -/
theorem test_adi_modes :
    [AdiFlags.masked, .rawCarry, .rawBoth].map (fun m =>
      seen 0 (after 0xC006 { start [(0, 250)] false false with params := { Params.standard with adiFlags := m } }))
    = [(0, true, false, 0x12), (0, true, true, 0x12), (0, false, true, 0x12)] := by decide
/-- J2 under MASKED. -/
theorem test_adi : seen 2 (after 0xC2FB (start [(2, 10)] false false)) = (5, false, false, 0x12) := by decide
/-- K5, K6, K7. -/
theorem test_brz : (after 0xD00E { State.reset with pc := 0x0A, z := true }).pc = 0x0E ∧
    (after 0xD00E { State.reset with pc := 0x0A, c := true }).pc = 0x0C ∧
    (after 0xD000 { State.reset with pc := 0xFE }).pc = 0 := by decide
/-- P1: the first coordinate is the one of the first register. -/
theorem test_plt : (after 0xE010 (start [(0, 3), (1, 30)] true true)).fb[3][6] = true ∧
    (after 0xE010 (start [(0, 3), (1, 30)] true true)).fb[6][3] = false := by decide
/-- P3: 255 mod 24 is 15 and 24 mod 24 is 0. -/
theorem test_plt_wrap : (after 0xE450 (start [(4, 255), (5, 24)] false false)).fb[15][0] = true := by decide
/-- Q1, Q3. -/
theorem test_seg : (after 0xF100 (start [(1, 15)] true true)).seg = 15 ∧
    (after 0xF1FF (start [(1, 9), (15, 3)] false false)).seg = 9 := by decide
/-- S6: a halted step changes nothing. -/
theorem test_halted : step { start [] false false with h := true } = .next { start [] false false with h := true } := rfl

/-- The host's two questions on a table word: the decoder gives the instruction, and step runs it first after reset. -/
theorem test_table_word : decodeTableWord 16 0xF100 = some (.seg 1) ∧
    step (State.reset.withFetchWord 16 0xF100) = exec (.seg 1) (State.reset.withFetchWord 16 0xF100).advancePc :=
  ⟨by decide, rfl⟩

/-! Host operations (T1 to T5), the scheduler (L1-7) and the assembler (L2-ASM). -/

theorem test_load : (State.reset.load [0xB0, 0x05]).mem = [(0, 0xB0), (1, 0x05)] := by decide
theorem test_reload : (State.reset.load [0xB0, 0x05, 0x80, 0x00] |>.load [0x00, 0x01]).mem = [(1, 0x01), (2, 0x80)] := by
  decide
theorem test_write_input : ((start [] false false).writeInput .down).reg 15 = 3 := by decide
theorem test_reset_keeps_memory : ({ start [(1, 7)] true true with mem := [(0, 0xB0)] }).hostReset =
    { State.reset with mem := [(0, 0xB0)] } := rfl
theorem test_sixty_hertz : Scheduler.due 60 1 = 60 := by
  have h : ((1 : Rat) / (1 / 60)) = ((60 : Int) : Rat) := by norm_num
  simp only [Scheduler.due, h, Rat.floor_intCast]
  rfl

theorem test_asm_e1 : assemble "FOO R1".toList = .error ⟨1, .unknownMnemonic⟩ := by decide
theorem test_asm_e3 : assemble "LDI R16, 1".toList = .error ⟨1, .operands .registerRange⟩ := by decide
theorem test_asm_e4 : assemble "JMP nowhere".toList = .error ⟨1, .unresolvedLabel⟩ := by decide
theorem test_asm_e7 : assemble "ADD R1, R2, 7".toList = .error ⟨1, .operands .operandKind⟩ := by decide
theorem test_asm_e9 : assemble "a: NOP\na: NOP".toList = .error ⟨2, .duplicateLabel⟩ := by decide
theorem test_asm_e12 : assemble "ADD R1, R2, R3\nPLT R0, R1\nLSH R1, R2".toList =
    .ok [0x21, 0x23, 0xE0, 0x10, 0xA1, 0x02] := by decide
theorem test_asm_e13 : assemble
    "; header comment\n\ntop:\n   ldi r0, 7   ; seven\nloop: adi R0, 255\n  brz END\n  jmp LOOP\nend:\n  hlt\n".toList =
    .ok [0xB0, 0x07, 0xC0, 0xFF, 0xD0, 0x08, 0x80, 0x02, 0x10, 0x00] := by decide
theorem test_asm_labels : assemble "R1: NOP".toList = .error ⟨1, .malformedLabel⟩ ∧
    assemble "add: NOP".toList = .error ⟨1, .malformedLabel⟩ := by decide
/-- The model's choice, log 17: a label may be indented, but not stand apart from its colon. -/
theorem test_asm_indented_label : assemble "  a: JMP a".toList = .ok [0x80, 0x00] ∧
    assemble "a : NOP".toList = .error ⟨1, .malformedLabel⟩ := by decide
/-- T2 of 95_test_vectors.md: a load of 257 bytes is refused, with no state change. -/
theorem test_load_too_long : loaderAccepts (List.replicate 257 1) = false ∧
    (start [] true true).load (List.replicate 257 1) = start [] true true :=
  ⟨by rw [loaderAccepts, List.length_replicate]; rfl,
    State.load_of_gt (by rw [List.length_replicate]; exact Nat.lt_succ_self 256)⟩
/-- The model's choice, log 17: a mnemonic as a value operand is an unresolved label. -/
theorem test_asm_mnemonic_operand : assemble "JMP ADD".toList = .error ⟨1, .unresolvedLabel⟩ ∧
    assemble "SEG ADD".toList = .error ⟨1, .operands .operandKind⟩ := by decide

/-! Witnesses: for each statement with hypotheses, inputs that meet them, clause by clause. -/

/-- A small running state: register 1 holds 200, register 2 holds 100, at pc 0x10 the word 0x2123. -/
def running : State := (start [(1, 200), (2, 100)] false false).withFetchWord 16 0x2123

/-- The same, halted. -/
def halted : State := { running with h := true }

theorem witness_HaltedStepChangesNothing : Ended halted ∧ Ended ({ block := halted, cycles := 3, last := 0 } : Scheduler).block :=
  ⟨rfl, rfl⟩
theorem witness_StepRunsDecodedInstruction : running.h = false ∧
    decode (BitVec.ofNat 16 ((running.mem.read (running.pc.toNat % 256)).toNat * 256 +
      (running.mem.read ((running.pc.toNat + 1) % 256)).toNat)) = .add 1 2 3 := by decide
theorem witness_FetchReadsTwoBytes : ({ running with pc := 255 } : State).pc.toNat = 255 := by decide
theorem witness_NextProgramCounter : running.h = false := by decide
theorem witness_AdiResult : running.params.adiFlags = .masked ∧
    ({ running with params := { running.params with adiFlags := .rawCarry } } : State).params.adiFlags = .rawCarry ∧
    ({ running with params := { running.params with adiFlags := .rawBoth } } : State).params.adiFlags = .rawBoth := by decide
theorem witness_JumpAndBranchResults : running.z = false ∧ ({ running with z := true } : State).z = true := by decide
theorem witness_AddThenSubReturns : (3 : RegIdx) ≠ 2 ∧ (2 : RegIdx) = 2 := by decide
theorem witness_ComplementNegationClear : running.reg 0 = 0 := by decide
/-- At the edge of each clause: 200 + 55 is 255, 200 + 56 is 256, 200 + 57 is 257. -/
theorem witness_AdiReadingsAgree : (running.reg 1).toNat + (55 : Byte).toNat ≤ 255 ∧
    (running.reg 1).toNat + (55 : Byte).toNat ≠ 256 ∧ (running.reg 1).toNat + (57 : Byte).toNat ≠ 256 := by decide
theorem witness_PlotTwiceRestores : (running.reg 0).toNat % 24 = ((running.setReg 4 24).reg 0).toNat % 24 ∧
    ((running.setReg 4 24).reg 0).toNat % 24 = ((running.setReg 4 24).reg 4).toNat % 24 := by decide
/-- An instruction that meets every clause's condition at once, and one for each clause it leaves. -/
theorem witness_ExecFrame : exec .nop running = .next running ∧ regWritten .nop ≠ some 0 ∧ writesFlags .nop = false ∧
    Instr.nop ≠ .hlt ∧ (∀ addr, Instr.nop ≠ .jmp addr ∧ Instr.nop ≠ .brz addr) ∧ (∀ a, Instr.nop ≠ .seg a) ∧
    (∀ a b, Instr.nop = .plt a b → ¬((0 : Fin 24) = plotCoord (running.reg a) ∧ (0 : Fin 24) = plotCoord (running.reg b))) :=
  ⟨rfl, by decide, rfl, by decide, fun _ => ⟨nofun, nofun⟩, fun _ => nofun, fun _ _ => nofun⟩
theorem witness_RegisterAccess : (∀ r ∈ regsRead (.add 1 2 3), running.reg r = (running.setReg 4 9).reg r) ∧
    running.setReg 4 9 = { running with x := (running.setReg 4 9).x } ∧ regWritten (.add 1 2 3) = some 3 ∧
    regWritten (.add 1 2 3) ≠ some 4 := ⟨by decide, rfl, by decide, by decide⟩
theorem witness_CarryIsNeverRead : SameButCarry running { running with c := true } := ⟨rfl, rfl, rfl, rfl, rfl, rfl, rfl, rfl⟩
theorem witness_OutputsAreNeverRead : SameButOutputs running { running.toggleCell 3 4 with seg := 9 } :=
  ⟨rfl, rfl, rfl, rfl, rfl, rfl, rfl⟩
theorem witness_OnlyLoadWritesMemory :
    (∀ op ∈ [HostOp.writeInput .up, .reset, .readState], op.isLoad = false) ∧
    runHost [.writeInput .up, .reset, .readState] running = .next running.hostReset := ⟨by decide, rfl⟩
theorem witness_StepKeepsInv : running.Inv ∧ halted.Inv ∧ step halted = .next halted ∧
    runHost [.load [7], .step] halted = .next (halted.load [7]) := ⟨by decide, by decide, rfl, rfl⟩
theorem witness_InvAtReset : Memory.wf [(255, 0xB3)] = true := by decide
theorem witness_CanonicalMemoriesEqual : Memory.wf [(0, 1), (255, 2)] = true ∧ Memory.wf (Memory.write [(255, 2)] 256 1) = true ∧
    ∀ a, a < 256 → Memory.read [(0, 1), (255, 2)] a = Memory.read (Memory.write [(255, 2)] 256 1) a :=
  ⟨by decide, by decide, fun _ _ => rfl⟩
theorem witness_HaltLastsUntilReset : Ended halted ∧
    ∀ op ∈ [HostOp.step, .writeInput .left, .load [1], .readOutputs], op.isReset = false := ⟨rfl, by decide⟩
theorem witness_JumpToItselfForever : (State.reset.withFetchWord 16 0x8500).h = false ∧
    (State.reset.withFetchWord 16 0x8500).fetchWord.toNat =
      0x8000 + (5 : RegIdx).toNat * 256 + (State.reset.withFetchWord 16 0x8500).pc.toNat := by decide
theorem witness_ZeroMemoryRunsOn : State.reset.h = false ∧ ∀ a, a < 256 → State.reset.mem.read a = 0 :=
  ⟨rfl, fun _ _ => rfl⟩
/-- Both clauses at their edge: 256 bytes are loaded, 257 are refused. -/
theorem witness_LoadBytes : running.Inv ∧ (List.replicate 256 (1 : Byte)).length ≤ 256 ∧
    256 < (List.replicate 257 (1 : Byte)).length := 
  ⟨by decide, by rw [List.length_replicate], by rw [List.length_replicate]; exact Nat.lt_succ_self 256⟩
theorem witness_PlacedInstructionIsFetched : running.Inv ∧ 65535 < 65536 := by decide
theorem witness_CyclesCountRunningSteps : running.h = false ∧ halted.h = true ∧
    Scheduler.steps 1 { block := running, cycles := 0, last := 0 } =
      .next { block := after 0x2123 (start [(1, 200), (2, 100)] false false), cycles := 1, last := 0 } ∧
    (after 0x2123 (start [(1, 200), (2, 100)] false false)).h = false := ⟨rfl, rfl, rfl, rfl⟩
/-- The block halts on the way: of up to 5 steps one is performed, the HLT step, with H = 0 before it. -/
theorem witness_CyclesCountRunningSteps_halt :
    Scheduler.steps 5 { block := running.withFetchWord 16 0x1000, cycles := 0, last := 0 } =
      .next { block := after 0x1000 running, cycles := 1, last := 0 } ∧ (after 0x1000 running).h = true ∧
    Host.Core.run Sys2Proof.core 0 (running.withFetchWord 16 0x1000) = .next (running.withFetchWord 16 0x1000) ∧
    (running.withFetchWord 16 0x1000).h = false := ⟨rfl, rfl, rfl, rfl⟩
/-- At 1 Hz one second is one step, and the block has not halted after it. -/
theorem witness_SchedulerTimestamp : (0 : Rat) < 1 ∧ (1 : Rat) - 0 = (1 : Nat) / 1 ∧
    Scheduler.tick 1 1 { block := running, cycles := 0, last := 0 } =
      .next { block := after 0x2123 (start [(1, 200), (2, 100)] false false), cycles := 1, last := 1 } ∧
    (after 0x2123 (start [(1, 200), (2, 100)] false false)).h = false := by
  have hd : Scheduler.due 1 (1 - 0) = 1 := by
    have h : (((1 : Rat) - 0) / (1 / 1)) = ((1 : Int) : Rat) := by norm_num
    simp only [Scheduler.due, h, Rat.floor_intCast]
    rfl
  refine ⟨by norm_num, by norm_num, ?_, rfl⟩
  have hs : Scheduler.steps 1 { block := running, cycles := 0, last := 0 } =
      .next { block := after 0x2123 (start [(1, 200), (2, 100)] false false), cycles := 1, last := 0 } := rfl
  simp only [Scheduler.tick, hd, hs]
  norm_num
theorem witness_LabelsResolveInsideMemory :
    pass1 (sourceLines "a: NOP\nb: HLT".toList) 0 [] =
      .ok ([(['a'], 0), (['b'], 2)], [⟨1, "nop".toList, []⟩, ⟨2, "hlt".toList, []⟩]) := by decide
theorem witness_AssemblerOutput : assemble "b: JMP b".toList = .ok [0x80, 0x00] := by decide
theorem witness_AssembledTextIsFetched : running.Inv ∧ assemble "NOP\nb: JMP b".toList = .ok [0x00, 0x00, 0x80, 0x02] ∧
    ([Instr.nop, .jmp 2] : List Instr)[1]? = some (.jmp 2) := by decide

end Sys2Proof.Tests
end

/-! PROOFS. The engine has no failure path (00_scope.md R12; 40_engine.md R94): what a step is in a halted and in a running
state, the completion of every instruction's execute phase, and the safety of every step from both. -/

namespace Sys2Proof.Machine

/-- A halted step leaves the state as it is (40_engine.md R86). -/
theorem step_of_halted {s : State} (hh : s.h = true) : step s = .next s := if_pos hh

/-- A running step executes the fetched instruction in the advanced state (40_engine.md R87). -/
theorem step_of_running {s : State} (hh : s.h = false) : step s = exec (decode s.fetchWord) s.advancePc :=
  if_neg (by simp [hh])

/-- The execute phase of every instruction answers a next state, in every state: the equation of each instruction's
meaning names it (40_engine.md R94). -/
theorem exec_completes (i : Instr) (s : State) : Completes i s := by
  cases i with
  | nop => exact ⟨_, exec_nop s⟩
  | hlt => exact ⟨_, exec_hlt s⟩
  | add a b c => exact ⟨_, exec_add a b c s⟩
  | sub a b c => exact ⟨_, exec_sub a b c s⟩
  | and a b c => exact ⟨_, exec_and a b c s⟩
  | or a b c => exact ⟨_, exec_or a b c s⟩
  | xor a b c => exact ⟨_, exec_xor a b c s⟩
  | nor a b c => exact ⟨_, exec_nor a b c s⟩
  | jmp addr => exact ⟨_, exec_jmp addr s⟩
  | rsh a c => exact ⟨_, exec_rsh a c s⟩
  | lsh a c => exact ⟨_, exec_lsh a c s⟩
  | ldi a imm => exact ⟨_, exec_ldi a imm s⟩
  | adi a imm => exact ⟨_, exec_adi a imm s⟩
  | brz addr => exact ⟨_, exec_brz addr s⟩
  | plt a b => exact ⟨_, exec_plt a b s⟩
  | seg a => exact ⟨_, exec_seg a s⟩

/-- Every step is safe, halted or running: a running one is the execute phase of some instruction. -/
theorem step_safe (s : State) : SafeStep s := by
  cases hh : s.h with
  | true => exact ⟨s, step_of_halted hh⟩
  | false =>
    obtain ⟨t, ht⟩ := exec_completes (decode s.fetchWord) s.advancePc
    exact ⟨t, (step_of_running hh).trans ht⟩

/-- Settles O5: a word decodes to some instruction, every instruction completes, and so every step is safe. -/
theorem noFailurePath : Obligations.NoFailurePath :=
  fun s => ⟨step_safe s, fun w => exec_completes (decode w) s⟩

end Sys2Proof.Machine

/-! PROOFS. The register table of 10_state.md R15. An instruction either writes one register, with a value that the two
states share because they agree in the registers it reads, or it writes none; what it does beside the registers is the same
in both states. -/

namespace Sys2Proof.Machine

/-- What the register table says of an instruction in two states: both complete, the next states agree in the written
register and in everything but registers, and every other register is kept. -/
def RegAccess (i : Instr) (s s' : State) : Prop :=
  ∃ t t', exec i s = .next t ∧ exec i s' = .next t' ∧ t' = { t with x := t'.x } ∧
    (∀ d, regWritten i = some d → t.reg d = t'.reg d) ∧
    ∀ r, regWritten i ≠ some r → t.reg r = s.reg r ∧ t'.reg r = s'.reg r

section
variable {i : Instr} {s s' t t' : State} {d : RegIdx} {res : Byte} {zf cf : Bool}

/-- Equal registers are equal as integers. -/
theorem State.regInt_congr {a : RegIdx} (h : s.reg a = s'.reg a) : s.regInt a = s'.regInt a := by
  simp only [State.regInt, h]

/-- Agreement on a list of two source registers, register by register. -/
theorem reg_agree_pair {a b : RegIdx} (h : ∀ r ∈ [a, b], s.reg r = s'.reg r) :
    s.reg a = s'.reg a ∧ s.reg b = s'.reg b :=
  ⟨h a (by simp), h b (by simp)⟩

/-- An instruction that writes one value to its listed register, in both states, is as the table says. -/
theorem regAccess_of_write (hw : regWritten i = some d) (he : exec i s = .next t) (he' : exec i s' = .next t')
    (hrest : t' = { t with x := t'.x }) (ht : ∀ j, t.reg j = if j = d then res else s.reg j)
    (ht' : ∀ j, t'.reg j = if j = d then res else s'.reg j) : RegAccess i s s' := by
  refine ⟨t, t', he, he', hrest, fun r hr => ?written, fun r hr => ?kept⟩
  case written =>
    obtain rfl : d = r := Option.some.inj (hw.symm.trans hr)
    rw [ht, ht', if_pos rfl, if_pos rfl]
  case kept =>
    have hne : r ≠ d := fun e => hr (e ▸ hw)
    exact ⟨(ht r).trans (if_neg hne), (ht' r).trans (if_neg hne)⟩

/-- The ALU instructions and ADI: the same result and flags, written in both states. -/
theorem regAccess_of_writeResult (hrest : s' = { s with x := s'.x }) (hw : regWritten i = some d)
    (he : exec i s = .next (s.writeResult d res zf cf)) (he' : exec i s' = .next (s'.writeResult d res zf cf)) :
    RegAccess i s s' :=
  regAccess_of_write hw he he' (congrArg (·.writeResult d res zf cf) hrest)
    (s.reg_writeResult d · res zf cf) (s'.reg_writeResult d · res zf cf)

/-- The logic and shift instructions: the same result, written in both states. -/
theorem regAccess_of_writeLogic (hrest : s' = { s with x := s'.x }) (hw : regWritten i = some d)
    (he : exec i s = .next (s.writeLogic d res)) (he' : exec i s' = .next (s'.writeLogic d res)) : RegAccess i s s' :=
  regAccess_of_writeResult hrest hw he he'

/-- An instruction that lists no written register and leaves the register file is as the table says. -/
theorem regAccess_of_no_write (hw : regWritten i = none) (he : exec i s = .next t) (he' : exec i s' = .next t')
    (hrest : t' = { t with x := t'.x }) (ht : ∀ r, t.reg r = s.reg r) (ht' : ∀ r, t'.reg r = s'.reg r) :
    RegAccess i s s' :=
  ⟨t, t', he, he', hrest, fun _ hd => absurd (hw.symm.trans hd) (by simp), fun r _ => ⟨ht r, ht' r⟩⟩

end

/-- BRZ with Z set transfers to its target (43_control.md R110). -/
theorem exec_brz_of_zero {s : State} (addr : Byte) (hz : s.z = true) : exec (.brz addr) s = .next (s.setPc addr) := by
  rw [exec_brz, if_pos hz]

/-- BRZ with Z clear leaves the state as it is (43_control.md R110). -/
theorem exec_brz_of_not_zero {s : State} (addr : Byte) (hz : s.z = false) : exec (.brz addr) s = .next s := by
  rw [exec_brz, if_neg (by simp [hz])]

/-- A branch reads Z and no register: two states that differ only in registers take it together. -/
theorem regAccess_brz (addr : Byte) {s s' : State} (hrest : s' = { s with x := s'.x }) :
    RegAccess (.brz addr) s s' := by
  have hzz : s'.z = s.z := by rw [hrest]
  cases hz : s.z with
  | true =>
    exact regAccess_of_no_write rfl (exec_brz_of_zero addr hz) (exec_brz_of_zero addr (hzz.trans hz))
      (congrArg (·.setPc addr) hrest) (s.reg_setPc addr) (s'.reg_setPc addr)
  | false =>
    exact regAccess_of_no_write rfl (exec_brz_of_not_zero addr hz) (exec_brz_of_not_zero addr (hzz.trans hz)) hrest
      (fun _ => rfl) (fun _ => rfl)

/-- Every instruction is as the register table says, in any two states that differ only in registers it does not read. -/
theorem regAccess_of_reads_agree (i : Instr) {s s' : State} (hread : ∀ r ∈ regsRead i, s.reg r = s'.reg r)
    (hrest : s' = { s with x := s'.x }) : RegAccess i s s' := by
  cases i with
  | nop => exact regAccess_of_no_write rfl (exec_nop s) (exec_nop s') hrest (fun _ => rfl) (fun _ => rfl)
  | hlt =>
    exact regAccess_of_no_write rfl (exec_hlt s) (exec_hlt s') (congrArg State.halt hrest) s.reg_halt s'.reg_halt
  | add a b c =>
    obtain ⟨ha, hb⟩ := reg_agree_pair hread
    exact regAccess_of_writeResult hrest rfl (exec_add a b c s)
      (by rw [exec_add, State.regInt_congr ha, State.regInt_congr hb])
  | sub a b c =>
    obtain ⟨ha, hb⟩ := reg_agree_pair hread
    exact regAccess_of_writeResult hrest rfl (exec_sub a b c s)
      (by rw [exec_sub, State.regInt_congr ha, State.regInt_congr hb])
  | and a b c =>
    obtain ⟨ha, hb⟩ := reg_agree_pair hread
    exact regAccess_of_writeLogic hrest rfl (exec_and a b c s) (by rw [exec_and, ha, hb])
  | or a b c =>
    obtain ⟨ha, hb⟩ := reg_agree_pair hread
    exact regAccess_of_writeLogic hrest rfl (exec_or a b c s) (by rw [exec_or, ha, hb])
  | xor a b c =>
    obtain ⟨ha, hb⟩ := reg_agree_pair hread
    exact regAccess_of_writeLogic hrest rfl (exec_xor a b c s) (by rw [exec_xor, ha, hb])
  | nor a b c =>
    obtain ⟨ha, hb⟩ := reg_agree_pair hread
    exact regAccess_of_writeLogic hrest rfl (exec_nor a b c s) (by rw [exec_nor, ha, hb])
  | jmp addr =>
    exact regAccess_of_no_write rfl (exec_jmp addr s) (exec_jmp addr s') (congrArg (·.setPc addr) hrest)
      (s.reg_setPc addr) (s'.reg_setPc addr)
  | rsh a c =>
    have ha := List.forall_mem_singleton.mp hread
    exact regAccess_of_writeLogic hrest rfl (exec_rsh a c s) (by rw [exec_rsh, ha])
  | lsh a c =>
    have ha := List.forall_mem_singleton.mp hread
    exact regAccess_of_writeLogic hrest rfl (exec_lsh a c s)
      (by rw [exec_lsh, State.regInt_congr ha])
  | ldi a imm =>
    exact regAccess_of_write rfl (exec_ldi a imm s) (exec_ldi a imm s') (congrArg (·.setReg a imm) hrest)
      (s.reg_setReg a · imm) (s'.reg_setReg a · imm)
  | adi a imm =>
    have ha := List.forall_mem_singleton.mp hread
    have hp : s'.params = s.params := by rw [hrest]
    exact regAccess_of_writeResult hrest rfl (exec_adi a imm s) (by rw [exec_adi, State.regInt_congr ha, hp])
  | brz addr => exact regAccess_brz addr hrest
  | plt a b =>
    obtain ⟨ha, hb⟩ := reg_agree_pair hread
    have he' : exec (.plt a b) s' = .next (s'.toggleCell (plotCoord (s.reg a)) (plotCoord (s.reg b))) := by
      rw [exec_plt, ha, hb]
    exact regAccess_of_no_write rfl (exec_plt a b s) he'
      (congrArg (·.toggleCell (plotCoord (s.reg a)) (plotCoord (s.reg b))) hrest)
      (s.reg_toggleCell _ _) (s'.reg_toggleCell _ _)
  | seg a =>
    have ha := List.forall_mem_singleton.mp hread
    have he' : exec (.seg a) s' = .next (s'.setSeg (s.reg a)) := by rw [exec_seg, ha]
    exact regAccess_of_no_write rfl (exec_seg a s) he' (congrArg (·.setSeg (s.reg a)) hrest)
      (s.reg_setSeg _) (s'.reg_setSeg _)

/-- Settles O26: the hypotheses are agreement on the registers read and on everything but registers. -/
theorem registerAccess : Obligations.RegisterAccess := fun i _ _ hread hrest => regAccess_of_reads_agree i hread hrest

end Sys2Proof.Machine

/-! PROOFS. Program memory (20_memory.md). The fetch reads two bytes modulo 256, and nothing but a load writes memory: no
instruction's meaning does, so no step does, nor does any other host operation or any list of them. -/

namespace Sys2Proof.Machine

/-- A read takes its address modulo 256 (20_memory.md R33). -/
theorem Memory.read_mod (m : Memory) (a : Nat) : m.read (a % 256) = m.read a :=
  congrArg m.lookup (Nat.mod_mod a 256)

/-- The fetched word as a number: the byte at pc is the more significant (20_memory.md R37, R38). -/
theorem State.fetchWord_toNat (s : State) :
    s.fetchWord.toNat =
      (s.mem.read (s.pc.toNat % 256)).toNat * 256 + (s.mem.read ((s.pc.toNat + 1) % 256)).toNat := by
  rw [State.fetchWord, wordOfBytes_toNat, Memory.read_mod, Memory.read_mod]

/-- Settles O8: the clause at 255 is the general one, where pc + 1 is 256 and so wraps to 0. -/
theorem fetchReadsTwoBytes : Obligations.FetchReadsTwoBytes :=
  fun s => ⟨s.fetchWord_toNat, fun hpc => by rw [s.fetchWord_toNat, hpc]⟩

section
variable {s t u : State} {op : HostOp} {ops : List HostOp}

/-- An outcome answers one state: when the one it is known to answer has the memory of s, so has the one it answers. -/
theorem mem_of_outcome_eq {o : Host.Outcome State Fault Refusal} (ho : o = .next u) (hu : u.mem = s.mem)
    (h : o = .next t) : t.mem = s.mem := by
  obtain rfl := Host.Outcome.next.inj (ho.symm.trans h)
  exact hu

/-- No instruction writes memory: each one's meaning goes through operations that keep it (20_memory.md R35). -/
theorem exec_mem {i : Instr} (h : exec i s = .next t) : t.mem = s.mem := by
  cases i with
  | nop => exact mem_of_outcome_eq (exec_nop s) rfl h
  | hlt => exact mem_of_outcome_eq (exec_hlt s) s.halt_mem h
  | add a b c => exact mem_of_outcome_eq (exec_add a b c s) (s.writeResult_mem c _ _ _) h
  | sub a b c => exact mem_of_outcome_eq (exec_sub a b c s) (s.writeResult_mem c _ _ _) h
  | and a b c => exact mem_of_outcome_eq (exec_and a b c s) (s.writeResult_mem c _ _ _) h
  | or a b c => exact mem_of_outcome_eq (exec_or a b c s) (s.writeResult_mem c _ _ _) h
  | xor a b c => exact mem_of_outcome_eq (exec_xor a b c s) (s.writeResult_mem c _ _ _) h
  | nor a b c => exact mem_of_outcome_eq (exec_nor a b c s) (s.writeResult_mem c _ _ _) h
  | jmp addr => exact mem_of_outcome_eq (exec_jmp addr s) (s.setPc_mem addr) h
  | rsh a c => exact mem_of_outcome_eq (exec_rsh a c s) (s.writeResult_mem c _ _ _) h
  | lsh a c => exact mem_of_outcome_eq (exec_lsh a c s) (s.writeResult_mem c _ _ _) h
  | ldi a imm => exact mem_of_outcome_eq (exec_ldi a imm s) (s.setReg_mem a imm) h
  | adi a imm => exact mem_of_outcome_eq (exec_adi a imm s) (s.writeResult_mem a _ _ _) h
  | brz addr =>
    cases hz : s.z with
    | true => exact mem_of_outcome_eq (exec_brz_of_zero addr hz) (s.setPc_mem addr) h
    | false => exact mem_of_outcome_eq (exec_brz_of_not_zero addr hz) rfl h
  | plt a b => exact mem_of_outcome_eq (exec_plt a b s) (s.toggleCell_mem _ _) h
  | seg a => exact mem_of_outcome_eq (exec_seg a s) (s.setSeg_mem _) h

/-- No step writes memory, halted or running (20_memory.md R35). -/
theorem step_mem (h : step s = .next t) : t.mem = s.mem := by
  obtain ⟨-, rfl⟩ | ⟨-, he⟩ := step_next_cases h
  · rfl
  · exact (exec_mem he).trans s.advancePc_mem

@[simp] theorem hostOp_readOutputs (s : State) : hostOp .readOutputs s = .next s := rfl
@[simp] theorem hostOp_readState (s : State) : hostOp .readState s = .next s := rfl

/-- A host operation other than a load writes no memory; for a reset that is D7 (20_memory.md R50). -/
theorem hostOp_mem_of_not_load (hop : op.isLoad = false) (h : hostOp op s = .next t) : t.mem = s.mem := by
  cases op with
  | load b => exact Bool.noConfusion hop
  | reset => exact mem_of_outcome_eq (hostOp_reset s) s.hostReset_mem h
  | step => exact step_mem h
  | writeInput k => exact mem_of_outcome_eq (hostOp_writeInput k s) (s.writeInput_mem k) h
  | readOutputs => exact mem_of_outcome_eq (hostOp_readOutputs s) rfl h
  | readState => exact mem_of_outcome_eq (hostOp_readState s) rfl h

/-- If a run answers a next state, so did its first operation, and the rest ran on from there. -/
theorem runHost_cons_next (h : runHost (op :: ops) s = .next t) :
    ∃ u, hostOp op s = .next u ∧ runHost ops u = .next t := by
  unfold runHost at h
  split at h
  · next u hu => exact ⟨u, hu, h⟩
  · cases h
  · cases h

/-- What every operation of a list keeps, the run under the list keeps. -/
theorem runHost_keeps {P : State → Prop} (hkeep : ∀ op ∈ ops, ∀ u v, P u → hostOp op u = .next v → P v)
    (hs : P s) (h : runHost ops s = .next t) : P t := by
  induction ops generalizing s with
  | nil =>
    obtain rfl := Host.Outcome.next.inj ((runHost_nil s).symm.trans h)
    exact hs
  | cons op ops ih =>
    obtain ⟨u, hop, hrest⟩ := runHost_cons_next h
    obtain ⟨hfirst, htail⟩ := List.forall_mem_cons.mp hkeep
    exact ih htail (hfirst s u hs hop) hrest

/-- A run without a load leaves the list of stored bytes as it was. -/
theorem runHost_mem_of_no_load (hops : ∀ op ∈ ops, op.isLoad = false) (h : runHost ops s = .next t) : t.mem = s.mem :=
  runHost_keeps (P := fun u => u.mem = s.mem)
    (fun op hop _ _ hu hv => (hostOp_mem_of_not_load (hops op hop) hv).trans hu) rfl h

end

/-- Settles O29: equal lists of stored bytes read alike at every address. -/
theorem onlyLoadWritesMemory : Obligations.OnlyLoadWritesMemory := by
  intro ops s t hops h
  have hm : t.mem = s.mem := runHost_mem_of_no_load hops h
  exact ⟨fun a => by rw [hm], hm⟩

end Sys2Proof.Machine

/-! PROOFS. The engine (40_engine.md). One step is the advance of pc and then the execute phase of the fetched instruction;
only JMP and BRZ write pc in the execute phase, so the next pc is read off those two. A halted step is the identity, on the
block and on the scheduler around it. -/

namespace Sys2Proof.Machine

/-- The advanced pc as a number: it wraps at 256 (40_engine.md R90). -/
theorem State.advancePc_pc_toNat (s : State) : s.advancePc.pc.toNat = (s.pc.toNat + 2) % 256 :=
  BitVec.toNat_add s.pc 2

/-- The advance in numbers, as a whole state: pc alone changes (40_engine.md R90). -/
theorem State.advancePc_eq (s : State) :
    s.advancePc = { s with pc := BitVec.ofNat 8 ((s.pc.toNat + 2) % 256) } := by
  rw [← s.advancePc_pc_toNat, BitVec.ofNat_toNat, BitVec.setWidth_eq]
  rfl

/-- The fetched word is the word of its number (20_memory.md R38). -/
theorem State.fetchWord_eq_ofNat (s : State) :
    s.fetchWord = BitVec.ofNat 16
      ((s.mem.read (s.pc.toNat % 256)).toNat * 256 + (s.mem.read ((s.pc.toNat + 1) % 256)).toNat) := by
  rw [← s.fetchWord_toNat, BitVec.ofNat_toNat, BitVec.setWidth_eq]

section
variable {s t u : State}

/-- An outcome answers one state: a field of the state it is known to answer is that field of the one it answers. -/
theorem field_of_outcome_eq {α : Type} (f : State → α) {v : α} {o : Host.Outcome State Fault Refusal}
    (ho : o = .next u) (hu : f u = v) (h : o = .next t) : f t = v := by
  obtain rfl := Host.Outcome.next.inj (ho.symm.trans h)
  exact hu

/-- The execute phase of a JMP leaves pc at its address (43_control.md R109). -/
theorem exec_jmp_pc {addr : Byte} (h : exec (.jmp addr) s = .next t) : t.pc = addr :=
  field_of_outcome_eq State.pc (exec_jmp addr s) (s.setPc_pc addr) h

/-- The execute phase of a BRZ leaves pc at its address exactly when Z is set (43_control.md R110). -/
theorem exec_brz_pc {addr : Byte} (h : exec (.brz addr) s = .next t) : t.pc = if s.z = true then addr else s.pc := by
  cases hz : s.z with
  | true => exact field_of_outcome_eq State.pc (exec_brz_of_zero addr hz) (s.setPc_pc addr) h
  | false => exact field_of_outcome_eq State.pc (exec_brz_of_not_zero addr hz) rfl h

/-- The execute phase of an instruction that is neither JMP nor BRZ leaves pc as it is (40_engine.md R90). -/
theorem exec_pc_of_not_transfer {i : Instr} (hi : ∀ addr, i ≠ .jmp addr ∧ i ≠ .brz addr) (h : exec i s = .next t) :
    t.pc = s.pc := by
  cases i with
  | nop => exact field_of_outcome_eq State.pc (exec_nop s) rfl h
  | hlt => exact field_of_outcome_eq State.pc (exec_hlt s) s.halt_pc h
  | add a b c => exact field_of_outcome_eq State.pc (exec_add a b c s) (s.writeResult_pc c _ _ _) h
  | sub a b c => exact field_of_outcome_eq State.pc (exec_sub a b c s) (s.writeResult_pc c _ _ _) h
  | and a b c => exact field_of_outcome_eq State.pc (exec_and a b c s) (s.writeResult_pc c _ _ _) h
  | or a b c => exact field_of_outcome_eq State.pc (exec_or a b c s) (s.writeResult_pc c _ _ _) h
  | xor a b c => exact field_of_outcome_eq State.pc (exec_xor a b c s) (s.writeResult_pc c _ _ _) h
  | nor a b c => exact field_of_outcome_eq State.pc (exec_nor a b c s) (s.writeResult_pc c _ _ _) h
  | jmp addr => exact absurd rfl (hi addr).1
  | rsh a c => exact field_of_outcome_eq State.pc (exec_rsh a c s) (s.writeResult_pc c _ _ _) h
  | lsh a c => exact field_of_outcome_eq State.pc (exec_lsh a c s) (s.writeResult_pc c _ _ _) h
  | ldi a imm => exact field_of_outcome_eq State.pc (exec_ldi a imm s) (s.setReg_pc a imm) h
  | adi a imm => exact field_of_outcome_eq State.pc (exec_adi a imm s) (s.writeResult_pc a _ _ _) h
  | brz addr => exact absurd rfl (hi addr).2
  | plt a b => exact field_of_outcome_eq State.pc (exec_plt a b s) (s.toggleCell_pc _ _) h
  | seg a => exact field_of_outcome_eq State.pc (exec_seg a s) (s.setSeg_pc _) h

end

/-- Settles O9, by the three cases of the execute phase after the advance: a jump, a branch, and every other
instruction. -/
theorem nextProgramCounter : Obligations.NextProgramCounter := by
  intro s hh
  obtain ⟨t, he⟩ := exec_completes (decode s.fetchWord) s.advancePc
  refine ⟨t, (step_of_running hh).trans he, ?_⟩
  split
  next addr hd =>
    rw [hd] at he
    rw [exec_jmp_pc he]
  next addr hd =>
    rw [hd] at he
    rw [exec_brz_pc he, State.advancePc_z, apply_ite BitVec.toNat, s.advancePc_pc_toNat]
  next hjmp hbrz =>
    rw [exec_pc_of_not_transfer (fun addr => ⟨hjmp addr, hbrz addr⟩) he, s.advancePc_pc_toNat]

/-- A scheduler step around a block step that answers a next state: the block is that state, and the step is counted
exactly when it was performed while H = 0 (70_reset_and_hazards.md R147). -/
theorem Scheduler.step_of_next {k : Scheduler} {t : State} (h : Machine.step k.block = .next t) :
    k.step = .next { k with block := t, cycles := if k.block.h then k.cycles else k.cycles + 1 } := by
  rw [Scheduler.step, h]

/-- A scheduler step of a halted block changes neither the block nor the bookkeeping (40_engine.md R86;
70_reset_and_hazards.md R147). -/
theorem Scheduler.step_of_halted {k : Scheduler} (hh : k.block.h = true) : k.step = .next k := by
  rw [Scheduler.step_of_next (Machine.step_of_halted hh), if_pos hh]

/-- Settles O6: the halted step of the block, and the scheduler's step around it. -/
theorem haltedStepChangesNothing : Obligations.HaltedStepChangesNothing :=
  ⟨fun _ => step_of_halted, fun _ => Scheduler.step_of_halted⟩

/-- Settles O7: a running step, with its fetch and its advance written as numbers. -/
theorem stepRunsDecodedInstruction : Obligations.StepRunsDecodedInstruction := by
  intro s i hh hi
  calc step s = exec (decode s.fetchWord) s.advancePc := step_of_running hh
    _ = exec i s.advancePc := by rw [s.fetchWord_eq_ofNat, hi]
    _ = exec i { s with pc := BitVec.ofNat 8 ((s.pc.toNat + 2) % 256) } := by rw [s.advancePc_eq]

end Sys2Proof.Machine

/-! PROOFS. The ALU register instructions (42_alu.md). Each writes one byte and both flags and nothing else, by one rule for
all eight. The byte is the exact integer result masked once (00_scope.md R9), and masking an integer is arithmetic on bytes:
so the identities of R107 and R108 are those of bytes. -/

namespace Sys2Proof.Machine

/-! Masking as arithmetic on bytes. -/

/-- Masking an integer takes it to the byte of that integer, for a negative one too (00_scope.md R9; log 10). -/
theorem mask8_eq_ofInt (v : Int) : mask8 v = BitVec.ofInt 8 v := by
  apply BitVec.eq_of_toNat_eq
  have hmask := mask8_toNat v
  rw [BitVec.toNat_ofInt]
  omega

/-- The byte of the integer a register holds is what the register holds. -/
theorem State.ofInt_regInt (s : State) (a : RegIdx) : BitVec.ofInt 8 (s.regInt a) = s.reg a := by
  rw [State.regInt, BitVec.ofInt_natCast, BitVec.ofNat_toNat, BitVec.setWidth_eq]

theorem State.mask8_regInt_add (s : State) (a b : RegIdx) : mask8 (s.regInt a + s.regInt b) = s.reg a + s.reg b := by
  rw [mask8_eq_ofInt, BitVec.ofInt_add, s.ofInt_regInt, s.ofInt_regInt]

theorem State.mask8_regInt_sub (s : State) (a b : RegIdx) : mask8 (s.regInt a - s.regInt b) = s.reg a - s.reg b := by
  rw [mask8_eq_ofInt, Int.sub_eq_add_neg, BitVec.ofInt_add, BitVec.ofInt_neg, s.ofInt_regInt, s.ofInt_regInt,
    BitVec.sub_eq_add_neg]

/-- Twice a register is the sum of the register with itself. -/
theorem State.mask8_two_mul_regInt (s : State) (a : RegIdx) : mask8 (2 * s.regInt a) = s.reg a + s.reg a := by
  rw [Int.two_mul, s.mask8_regInt_add]

/-- The carry of a sum of two registers, on naturals (42_alu.md R99). -/
theorem State.carryOf_regInt_add (s : State) (a b : RegIdx) :
    carryOf (s.regInt a + s.regInt b) = decide (255 < (s.reg a).toNat + (s.reg b).toNat) := by
  simp only [carryOf, State.regInt]
  exact decide_eq_decide.mpr (by omega)

/-- The borrow of a difference of two registers: the first is below the second (42_alu.md R100). -/
theorem State.borrowOf_regInt_sub (s : State) (a b : RegIdx) :
    borrowOf (s.regInt a - s.regInt b) = decide ((s.reg a).toNat < (s.reg b).toNat) := by
  simp only [borrowOf, State.regInt]
  exact decide_eq_decide.mpr (by omega)

/-! What each instruction writes. -/

/-- Writing a result keeps everything but the registers and the flags. -/
theorem State.writeResult_sameButRegsFlags (s : State) (d : RegIdx) (res : Byte) (zf cf : Bool) :
    SameButRegsFlags s (s.writeResult d res zf cf) where
  pc := s.writeResult_pc d res zf cf
  h := s.writeResult_h d res zf cf
  cells _ _ := rfl
  seg := s.writeResult_seg d res zf cf
  mem := ⟨fun _ => rfl, s.writeResult_mem d res zf cf⟩
  params := s.writeResult_params d res zf cf

section
variable {i : Instr} {s : State} {d : RegIdx} {res : Byte} {carry : Bool}

/-- An instruction whose meaning writes a byte, Z from that byte and C writes that result (42_alu.md R98). -/
theorem writesResult_of_exec (he : exec i s = .next (s.writeResult d res (zeroOf res) carry)) :
    WritesResult i s d res carry :=
  ⟨_, he, s.reg_writeResult_same d res _ _, zeroOf_eq res, rfl,
    fun r hr => (s.reg_writeResult d r res _ _).trans (if_neg hr), s.writeResult_sameButRegsFlags d res _ _⟩

/-- A logic or shift instruction writes its byte, with C cleared (42_alu.md R98). -/
theorem writesResult_of_exec_writeLogic (he : exec i s = .next (s.writeLogic d res)) : WritesResult i s d res false :=
  writesResult_of_exec (he.trans (congrArg Host.Outcome.next (s.writeLogic_eq d res)))

/-- Z tells whether the destination then holds 0. -/
theorem WritesResult.zero_of_destination (h : WritesResult i s d res carry) :
    ∃ t, exec i s = .next t ∧ t.z = decide (t.reg d = 0) := by
  obtain ⟨t, he, hreg, hz, -⟩ := h
  exact ⟨t, he, by rw [hz, hreg]⟩

theorem WritesResult.carry_eq (h : WritesResult i s d res carry) : ∃ t, exec i s = .next t ∧ t.c = carry := by
  obtain ⟨t, he, -, -, hc, -⟩ := h
  exact ⟨t, he, hc⟩

end

section
variable (a b c : RegIdx) (s : State)

theorem writesResult_add : WritesResult (.add a b c) s c (s.reg a + s.reg b)
    (decide (255 < (s.reg a).toNat + (s.reg b).toNat)) := by
  rw [← s.mask8_regInt_add, ← s.carryOf_regInt_add]
  exact writesResult_of_exec (exec_add a b c s)

theorem writesResult_sub : WritesResult (.sub a b c) s c (s.reg a - s.reg b)
    (decide ((s.reg a).toNat < (s.reg b).toNat)) := by
  rw [← s.mask8_regInt_sub, ← s.borrowOf_regInt_sub]
  exact writesResult_of_exec (exec_sub a b c s)

theorem writesResult_and : WritesResult (.and a b c) s c (s.reg a &&& s.reg b) false :=
  writesResult_of_exec_writeLogic (exec_and a b c s)

theorem writesResult_or : WritesResult (.or a b c) s c (s.reg a ||| s.reg b) false :=
  writesResult_of_exec_writeLogic (exec_or a b c s)

theorem writesResult_xor : WritesResult (.xor a b c) s c (s.reg a ^^^ s.reg b) false :=
  writesResult_of_exec_writeLogic (exec_xor a b c s)

theorem writesResult_nor : WritesResult (.nor a b c) s c (~~~(s.reg a ||| s.reg b)) false :=
  writesResult_of_exec_writeLogic (exec_nor a b c s)

theorem writesResult_rsh : WritesResult (.rsh a c) s c (s.reg a >>> 1) false :=
  writesResult_of_exec_writeLogic (exec_rsh a c s)

theorem writesResult_lsh : WritesResult (.lsh a c) s c (s.reg a + s.reg a) false := by
  rw [← s.mask8_two_mul_regInt]
  exact writesResult_of_exec_writeLogic (exec_lsh a c s)

/-- The four logic and two shift instructions write some byte and clear C (42_alu.md R98). -/
theorem writesResult_of_mem_logic {i : Instr}
    (hi : i ∈ [Instr.and a b c, .or a b c, .xor a b c, .nor a b c, .rsh a c, .lsh a c]) :
    ∃ res, WritesResult i s c res false := by
  simp only [List.mem_cons, List.not_mem_nil, or_false] at hi
  obtain rfl | rfl | rfl | rfl | rfl | rfl := hi
  · exact ⟨_, writesResult_and a b c s⟩
  · exact ⟨_, writesResult_or a b c s⟩
  · exact ⟨_, writesResult_xor a b c s⟩
  · exact ⟨_, writesResult_nor a b c s⟩
  · exact ⟨_, writesResult_rsh a c s⟩
  · exact ⟨_, writesResult_lsh a c s⟩

/-- All eight ALU register instructions write some byte and some carry (42_alu.md R98). -/
theorem writesResult_of_mem_alu {i : Instr}
    (hi : i ∈ [Instr.add a b c, .sub a b c, .and a b c, .or a b c, .xor a b c, .nor a b c, .rsh a c, .lsh a c]) :
    ∃ res carry, WritesResult i s c res carry := by
  obtain rfl | hi := List.mem_cons.mp hi
  · exact ⟨_, _, writesResult_add a b c s⟩
  obtain rfl | hi := List.mem_cons.mp hi
  · exact ⟨_, _, writesResult_sub a b c s⟩
  obtain ⟨res, hres⟩ := writesResult_of_mem_logic a b c s hi
  exact ⟨res, false, hres⟩

end

/-! Arithmetic on bytes as arithmetic on numbers. -/

/-- The sum of two bytes is their sum as numbers modulo 256 (00_scope.md R9). -/
theorem ofNat_add_mod_eq (x y : Byte) : BitVec.ofNat 8 ((x.toNat + y.toNat) % 256) = x + y := by
  rw [← BitVec.toNat_add, BitVec.ofNat_toNat, BitVec.setWidth_eq]

/-- The difference of two bytes is their difference as numbers modulo 256 (00_scope.md R9; log 10). -/
theorem ofNat_sub_mod_eq (x y : Byte) : BitVec.ofNat 8 ((256 + x.toNat - y.toNat) % 256) = x - y := by
  apply BitVec.eq_of_toNat_eq
  have hy := y.isLt
  rw [BitVec.toNat_ofNat, BitVec.toNat_sub]
  omega

/-- Shifting a byte right by one halves its number (42_alu.md R105). -/
theorem ofNat_half_eq (x : Byte) : BitVec.ofNat 8 (x.toNat / 2) = x >>> 1 := by
  apply BitVec.eq_of_toNat_eq
  have hx := x.isLt
  rw [BitVec.toNat_ofNat, BitVec.toNat_ushiftRight, Nat.shiftRight_eq_div_pow]
  omega

/-! The statements. -/

/-- Settles O21: the SUB takes from the sum what the ADD put into it, unless the ADD wrote over that source, and then it
takes the sum from itself. -/
theorem addThenSubReturns : Obligations.AddThenSubReturns := by
  intro a b c s
  obtain ⟨t, hadd, hsum, -, -, hkept, -⟩ := writesResult_add a b c s
  obtain ⟨u, hsub, hdiff, -⟩ := writesResult_sub c b c t
  refine ⟨t, u, hadd, hsub, fun hne => ?other, fun heq => ?same⟩
  case other =>
    calc u.reg c = t.reg c - t.reg b := hdiff
      _ = s.reg a + s.reg b - s.reg b := by rw [hsum, hkept b hne.symm]
      _ = s.reg a := BitVec.add_sub_cancel _ _
  case same =>
    rw [hdiff, heq, sub_self]

/-- Settles O11: the ADD rule, with its sum of bytes as a number modulo 256. -/
theorem addResult : Obligations.AddResult := by
  intro a b c s
  rw [ofNat_add_mod_eq]
  exact writesResult_add a b c s

/-- Settles O12: Z is set exactly when the difference is 0, that is when the sources are equal. -/
theorem subResult : Obligations.SubResult := by
  intro a b c s
  have hsub := writesResult_sub a b c s
  refine ⟨by rwa [ofNat_sub_mod_eq], ?_⟩
  obtain ⟨t, he, -, hz, -⟩ := hsub
  exact ⟨t, he, hz.trans (decide_eq_decide.mpr sub_eq_zero)⟩

/-- Settles O13: the bits of each bitwise result are those of its operation on bytes. -/
theorem logicResults : Obligations.LogicResults := by
  intro a b c s
  refine ⟨_, _, _, _, fun j => ⟨BitVec.getElem_and j.isLt, BitVec.getElem_or j.isLt, BitVec.getElem_xor j.isLt, ?_⟩,
    writesResult_and a b c s, writesResult_or a b c s, writesResult_xor a b c s, writesResult_nor a b c s⟩
  exact (BitVec.getElem_not j.isLt).trans (congrArg _ (BitVec.getElem_or j.isLt))

/-- Settles O14: a shift left doubles, and doubling is adding the register to itself. -/
theorem shiftResults : Obligations.ShiftResults := by
  intro a c s
  rw [ofNat_half_eq, Nat.two_mul, ofNat_add_mod_eq]
  exact ⟨writesResult_rsh a c s, writesResult_lsh a c s⟩

/-- Settles O20: Z by the one rule of all eight instructions, C by the instruction. -/
theorem aluWritesBothFlags : Obligations.AluWritesBothFlags := by
  intro a b d s
  refine ⟨fun i hi => ?zero, (writesResult_add a b d s).carry_eq, (writesResult_sub a b d s).carry_eq,
    fun i hi => ?clear⟩
  case zero =>
    obtain ⟨res, carry, h⟩ := writesResult_of_mem_alu a b d s hi
    exact h.zero_of_destination
  case clear =>
    obtain ⟨res, h⟩ := writesResult_of_mem_logic a b d s hi
    exact h.carry_eq

/-- Settles O22: the complement of a byte is its distance from 255, a byte and its negation sum to 0, and a byte xor itself
is 0. -/
theorem complementNegationClear : Obligations.ComplementNegationClear := by
  intro a b c s
  refine ⟨?complement, ?negation, ?clear⟩
  case complement =>
    obtain ⟨t, he, hres, -⟩ := writesResult_nor a a c s
    exact ⟨t, he, by rw [hres, BitVec.or_self, BitVec.toNat_not]⟩
  case negation =>
    obtain ⟨t, he, hres, -⟩ := writesResult_sub a b c s
    refine ⟨t, he, fun h0 => ?_⟩
    have hsum : s.reg b + t.reg c = 0 := by rw [hres, h0, add_sub_cancel]
    rw [← BitVec.toNat_add, hsum]
    rfl
  case clear =>
    obtain ⟨t, he, hres, hz, hc, -⟩ := writesResult_xor a a c s
    rw [BitVec.xor_self] at hres hz
    exact ⟨t, he, hres, hz, hc⟩

end Sys2Proof.Machine

/-! PROOFS. The immediate load (44_immediate.md R113). LDI is one register write, so what it leaves unchanged is what a
register write leaves unchanged: unlike an ALU result, that includes both flags. -/

namespace Sys2Proof.Machine

/-- A register write keeps both flags. -/
theorem State.setReg_sameFlags (s : State) (i : RegIdx) (v : Byte) : SameFlags s (s.setReg i v) where
  z := s.setReg_z i v
  c := s.setReg_c i v

/-- A register write keeps everything but the registers and the flags. -/
theorem State.setReg_sameButRegsFlags (s : State) (i : RegIdx) (v : Byte) : SameButRegsFlags s (s.setReg i v) where
  pc := s.setReg_pc i v
  h := s.setReg_h i v
  cells _ _ := rfl
  seg := s.setReg_seg i v
  mem := ⟨fun _ => rfl, s.setReg_mem i v⟩
  params := s.setReg_params i v

/-- Settles O15: LDI answers the state with its immediate written to its register, and the rules of a register write give
the value read back and the frame. -/
theorem ldiResult : Obligations.LdiResult := by
  intro a imm s
  have hvalue : ((s.setReg a imm).reg a).toNat = imm.toNat := congrArg BitVec.toNat (s.reg_setReg_same a imm)
  have hothers : SameRegsBut a s (s.setReg a imm) := fun _ hr => s.reg_setReg_ne imm hr
  exact ⟨s.setReg a imm, exec_ldi a imm s, hvalue, hothers, s.setReg_sameFlags a imm, s.setReg_sameButRegsFlags a imm⟩

end Sys2Proof.Machine

/-! PROOFS. The host's operations (60_exceptions.md R131): what each one answers, and what a load of bytes leaves in memory
(20_memory.md R49). -/

namespace Sys2Proof.Machine

section
variable (s t : State)

@[simp] theorem hostReply_reset : hostReply .reset s t = .nothing := rfl
@[simp] theorem hostReply_load (b : List Byte) : hostReply (.load b) s t = .nothing := rfl
@[simp] theorem hostReply_step : hostReply .step s t = .halted t.h := rfl
@[simp] theorem hostReply_writeInput (k : Input) : hostReply (.writeInput k) s t = .nothing := rfl
@[simp] theorem hostReply_readOutputs : hostReply .readOutputs s t = .outputs s.fb s.seg := rfl
@[simp] theorem hostReply_readState : hostReply .readState s t = .state s := rfl

end

/-- Settles O42: the table of replies, one rule per operation. -/
theorem hostReadsAndReplies : Obligations.HostReadsAndReplies := fun s =>
  ⟨hostOp_readOutputs s, hostOp_readState s, hostOp_step s, hostReply_readOutputs s s, hostReply_readState s s,
    fun t => ⟨hostReply_step s t, hostReply_reset s t, hostReply_load s t, hostReply_writeInput s t⟩⟩

/-- Bytes written from an address on, not beyond the last address, leave every byte below it. -/
theorem Memory.read_writeFrom_below {m : Memory} (hm : m.wf = true) {a k : Nat} {b : List Byte} (ha : a < k)
    (hlen : k + b.length ≤ 256) : (m.writeFrom k b).read a = m.read a := by
  induction b generalizing m k with
  | nil => rfl
  | cons v rest ih =>
    rw [List.length_cons] at hlen
    have hne : a % 256 ≠ k % 256 := by omega
    calc ((m.write k v).writeFrom (k + 1) rest).read a
      _ = (m.write k v).read a := ih (Memory.wf_write hm k v) (by omega) (by omega)
      _ = m.read a := (Memory.read_write hm k a v).trans (if_neg hne)

/-- Bytes written from an address on, not beyond the last address: the one at an offset is read back there, and an offset
past the sequence reads as before (20_memory.md R49). -/
theorem Memory.read_writeFrom {m : Memory} (hm : m.wf = true) {k i : Nat} {b : List Byte} (hi : k + i < 256)
    (hlen : k + b.length ≤ 256) : (m.writeFrom k b).read (k + i) = b.getD i (m.read (k + i)) := by
  induction b generalizing m k i with
  | nil => rfl
  | cons v rest ih =>
    rw [List.length_cons] at hlen
    have hwf : (m.write k v).wf = true := Memory.wf_write hm k v
    cases i with
    | zero =>
      calc ((m.write k v).writeFrom (k + 1) rest).read k
        _ = (m.write k v).read k := Memory.read_writeFrom_below hwf (Nat.lt_succ_self k) (by omega)
        _ = v := (Memory.read_write hm k k v).trans (if_pos rfl)
    | succ i =>
      have hne : (k + (i + 1)) % 256 ≠ k % 256 := by omega
      have hkept : (m.write k v).read (k + (i + 1)) = m.read (k + (i + 1)) :=
        (Memory.read_write hm k _ v).trans (if_neg hne)
      have hrest := ih hwf (k := k + 1) (i := i) (by omega) (by omega)
      rw [Nat.add_right_comm, Nat.add_assoc, hkept] at hrest
      exact hrest

/-- A load, of whatever length, changes memory alone (20_memory.md R49; D8). -/
theorem State.load_eq (s : State) (b : List Byte) : s.load b = { s with mem := (s.load b).mem } := by
  rcases Nat.lt_or_ge 256 b.length with hlong | hfits
  · rw [State.load_of_gt hlong]
  · rw [State.load_of_le hfits]

/-- Settles O39: the loader's check decides which clause applies; a load that fits writes from address 0 on. -/
theorem loadBytes : Obligations.LoadBytes := by
  intro s b hinv
  refine ⟨fun hfits => ?fits, fun hlong => ?tooLong⟩
  case fits =>
    refine ⟨loaderAccepts_iff.mpr hfits, s.load b, hostOp_load b s, hostReply_load s _ b, fun a ha => ?_, s.load_eq b⟩
    have hread := Memory.read_writeFrom hinv (k := 0) (i := a) (b := b) (by omega) (by omega)
    rw [Nat.zero_add] at hread
    rw [State.load_of_le hfits]
    exact hread
  case tooLong =>
    have hrefused : loaderAccepts b = false := Bool.eq_false_iff.mpr (fun h => hlong.not_ge (loaderAccepts_iff.mp h))
    have hstate : hostOp (.load b) s = .next s := by rw [hostOp_load, State.load_of_gt hlong]
    exact ⟨hrefused, hstate, hostReply_load s s b⟩

end Sys2Proof.Machine

/-! PROOFS. The stop state (60_exceptions.md R130). What a halted engine keeps is a transitive relation that every host
operation but reset keeps, so every list of them does; a run of steps alone stays where it is. -/

namespace Sys2Proof.Machine

section
variable {s t u : State} {op : HostOp} {ops : List HostOp}

/-- If every operation of a list answers, from each state with a property, a state with it, so does the run. -/
theorem runHost_answers {P : State → Prop} (hkeep : ∀ op ∈ ops, ∀ u, P u → ∃ v, hostOp op u = .next v ∧ P v)
    (hs : P s) : ∃ t, runHost ops s = .next t ∧ P t := by
  induction ops generalizing s with
  | nil => exact ⟨s, runHost_nil s, hs⟩
  | cons op ops ih =>
    obtain ⟨hfirst, htail⟩ := List.forall_mem_cons.mp hkeep
    obtain ⟨u, hop, hu⟩ := hfirst s hs
    obtain ⟨t, hrun, ht⟩ := ih htail hu
    exact ⟨t, (runHost_cons hop).trans hrun, ht⟩

theorem SameWhileHalted.refl (s : State) : SameWhileHalted s s := ⟨fun _ _ => rfl, rfl, rfl, rfl, rfl, rfl, rfl, rfl⟩

theorem SameWhileHalted.trans (hst : SameWhileHalted s t) (htu : SameWhileHalted t u) : SameWhileHalted s u where
  regs r hr := (htu.regs r hr).trans (hst.regs r hr)
  pc := htu.pc.trans hst.pc
  z := htu.z.trans hst.z
  c := htu.c.trans hst.c
  h := htu.h.trans hst.h
  fb := htu.fb.trans hst.fb
  seg := htu.seg.trans hst.seg
  params := htu.params.trans hst.params

/-- An input write reaches x[15] alone (60_exceptions.md R127). -/
theorem State.writeInput_sameWhileHalted (s : State) (k : Input) : SameWhileHalted s (s.writeInput k) where
  regs _ hr := s.reg_setReg_ne k.code hr
  pc := s.writeInput_pc k
  z := s.writeInput_z k
  c := s.writeInput_c k
  h := s.writeInput_h k
  fb := s.writeInput_fb k
  seg := s.writeInput_seg k
  params := s.writeInput_params k

/-- A load reaches memory alone (20_memory.md R49; D8). -/
theorem State.load_sameWhileHalted (s : State) (b : List Byte) : SameWhileHalted s (s.load b) := by
  rw [s.load_eq b]
  exact ⟨fun _ _ => rfl, rfl, rfl, rfl, rfl, rfl, rfl, rfl⟩

/-- Every host operation but reset answers, from a halted state, one that keeps what a halted engine keeps. -/
theorem hostOp_sameWhileHalted (hh : s.h = true) (hop : op.isReset = false) :
    ∃ t, hostOp op s = .next t ∧ SameWhileHalted s t := by
  cases op with
  | reset => exact Bool.noConfusion hop
  | load b => exact ⟨_, hostOp_load b s, s.load_sameWhileHalted b⟩
  | step => exact ⟨s, (hostOp_step s).trans (step_of_halted hh), .refl s⟩
  | writeInput k => exact ⟨_, hostOp_writeInput k s, s.writeInput_sameWhileHalted k⟩
  | readOutputs => exact ⟨s, hostOp_readOutputs s, .refl s⟩
  | readState => exact ⟨s, hostOp_readState s, .refl s⟩

/-- Halt lasts under every list of host operations without a reset: the kept H makes each next state halted again. -/
theorem runHost_sameWhileHalted (hh : s.h = true) (hops : ∀ op ∈ ops, op.isReset = false) :
    ∃ t, runHost ops s = .next t ∧ SameWhileHalted s t := by
  refine runHost_answers (fun op hop u hu => ?_) (SameWhileHalted.refl s)
  obtain ⟨v, hv, huv⟩ := hostOp_sameWhileHalted (hu.h.trans hh) (hops op hop)
  exact ⟨v, hv, hu.trans huv⟩

/-- Any number of halted steps leaves the whole state as it is (40_engine.md R86). -/
theorem runHost_steps_of_halted (hh : s.h = true) (n : Nat) : runHost (List.replicate n .step) s = .next s := by
  induction n with
  | zero => exact runHost_nil s
  | succ n ih => exact (runHost_cons ((hostOp_step s).trans (step_of_halted hh))).trans ih

end

/-- Settles O33: the invariant of halted states under every list without a reset, steps alone, and the three operations
that reach a halted block: an input write, a read, and the reset that clears H. -/
theorem haltLastsUntilReset : Obligations.HaltLastsUntilReset := by
  intro s hh
  have hinput (k : Input) : (s.writeInput k).reg 15 = k.code := s.reg_setReg_same 15 k.code
  exact ⟨fun _ hops => runHost_sameWhileHalted hh hops, runHost_steps_of_halted hh,
    fun k => ⟨s.writeInput k, hostOp_writeInput k s, hinput k⟩, hostReply_readOutputs s s,
    s.hostReset, hostOp_reset s, s.hostReset_h⟩

end Sys2Proof.Machine

/-! PROOFS. The boot sequence (70_reset_and_hazards.md R138): its reset and its load may be done in either order. -/

namespace Sys2Proof.Machine

/-- A load before a reset leaves the state that it leaves after it: the loader's check looks at the length of the bytes
alone, a load writes memory alone (20_memory.md R49; D8), and a reset keeps memory (R136; D7). -/
theorem State.hostReset_load (s : State) (b : List Byte) : (s.load b).hostReset = s.hostReset.load b := by
  rcases Nat.lt_or_ge 256 b.length with hlong | hfits
  · rw [State.load_of_gt hlong, State.load_of_gt hlong]
  · calc (s.load b).hostReset
      _ = { s with mem := s.mem.writeFrom 0 b }.hostReset := by rw [State.load_of_le hfits]
      _ = { s.hostReset with mem := s.hostReset.mem.writeFrom 0 b } := rfl
      _ = s.hostReset.load b := (State.load_of_le hfits).symm

/-- Settles O40: each order runs to the next state of its second operation, and those two states agree. -/
theorem resetLoadCommute : Obligations.ResetLoadCommute := by
  intro s b
  have hresetFirst : runHost [.reset, .load b] s = .next (s.hostReset.load b) :=
    (runHost_cons (hostOp_reset s)).trans (runHost_cons (hostOp_load b s.hostReset))
  have hloadFirst : runHost [.load b, .reset] s = .next (s.load b).hostReset :=
    (runHost_cons (hostOp_load b s)).trans (runHost_cons (hostOp_reset (s.load b)))
  rw [hresetFirst, hloadFirst, s.hostReset_load b]

end Sys2Proof.Machine

/-! PROOFS. The encoding (30_encoding.md). A word is its opcode and three nibbles, and decoding is one function of them: so
each statement is about nibbles, whatever the format. A format without one of the sub-fields b and c reads the two as one
byte, or reads neither. -/

namespace Sys2Proof

/-- The instruction an opcode makes of the three nibbles below it (30_encoding.md R58 to R64). -/
def Opcode.instrOf : Opcode → BitVec 4 → BitVec 4 → BitVec 4 → Instr
  | .nop, _, _, _ => .nop
  | .hlt, _, _, _ => .hlt
  | .add, a, b, c => .add a b c
  | .sub, a, b, c => .sub a b c
  | .and, a, b, c => .and a b c
  | .or, a, b, c => .or a b c
  | .xor, a, b, c => .xor a b c
  | .nor, a, b, c => .nor a b c
  | .jmp, _, b, c => .jmp (b ++ c)
  | .rsh, a, _, c => .rsh a c
  | .lsh, a, _, c => .lsh a c
  | .ldi, a, b, c => .ldi a (b ++ c)
  | .adi, a, b, c => .adi a (b ++ c)
  | .brz, _, b, c => .brz (b ++ c)
  | .plt, a, b, _ => .plt a b
  | .seg, a, _, _ => .seg a

/-- The byte field of a word is its two lower nibbles (30_encoding.md R57). -/
theorem Word.imm8_eq_append (w : Word) : Word.imm8 w = Word.b w ++ Word.c w := by
  conv_lhs => rw [Word.eq_nibbles w]
  exact Word.imm8_nibbles _ _ _ _

/-- Decoding reads a word's opcode field and its three nibbles, and nothing else (30_encoding.md R71). -/
theorem decode_eq_instrOf (w : Word) :
    decode w = (Opcode.ofField (Word.op w)).instrOf (Word.a w) (Word.b w) (Word.c w) := by
  unfold decode
  split <;> simp only [*, Opcode.instrOf, Word.imm8_eq_append]

theorem decode_nibbles (o : Opcode) (a b c : BitVec 4) : decode (nibbles o.field a b c) = o.instrOf a b c := by
  rw [decode_eq_instrOf, Word.op_nibbles, Word.a_nibbles, Word.b_nibbles, Word.c_nibbles, Opcode.ofField_field]

/-! Bytes and operand fields as nibbles. -/

/-- Two nibbles as the number of their byte. -/
theorem toNat_append_nibble (p q : BitVec 4) : (p ++ q : Byte).toNat = p.toNat * 16 + q.toNat := by
  rw [BitVec.toNat_append, ← Nat.shiftLeft_add_eq_or_of_lt q.isLt, Nat.shiftLeft_eq]

/-- Every byte is two nibbles. -/
theorem exists_byte_nibbles (v : Byte) : ∃ p q : BitVec 4, v = p ++ q := by
  refine ⟨BitVec.ofNat 4 (v.toNat / 16), BitVec.ofNat 4 (v.toNat % 16), BitVec.eq_of_toNat_eq ?_⟩
  have hv := v.isLt
  rw [toNat_append_nibble, BitVec.toNat_ofNat, BitVec.toNat_ofNat]
  omega

/-- Every operand field, as a number, is three nibbles. -/
theorem exists_field_nibbles (n : BitVec 12) :
    ∃ p q r : BitVec 4, n.toNat = p.toNat * 256 + q.toNat * 16 + r.toNat := by
  refine ⟨BitVec.ofNat 4 (n.toNat / 256), BitVec.ofNat 4 (n.toNat / 16 % 16), BitVec.ofNat 4 (n.toNat % 16), ?_⟩
  have hn := n.isLt
  simp only [BitVec.toNat_ofNat]
  omega

/-- A nibble and a byte below an opcode field are the word of the byte's nibbles. -/
theorem append_byte_eq_nibbles (op a p q : BitVec 4) : op ++ (a ++ (p ++ q : Byte)) = nibbles op a p q :=
  congrArg (op ++ ·) (BitVec.append_assoc (x₁ := a) (x₂ := p) (x₃ := q)).symm

/-- Decoding a word given as an opcode, a nibble and a byte. -/
theorem decode_append_byte (o : Opcode) (a p q : BitVec 4) :
    decode (o.field ++ (a ++ (p ++ q : Byte))) = o.instrOf a p q :=
  (congrArg decode (append_byte_eq_nibbles o.field a p q)).trans (decode_nibbles o a p q)

/-- Decoding a word given as the number of its nibbles (30_encoding.md R57). -/
theorem decode_ofNat (o : Opcode) (a b c : BitVec 4) {n : Nat}
    (hn : n = o.field.toNat * 4096 + a.toNat * 256 + b.toNat * 16 + c.toNat) :
    decode (BitVec.ofNat 16 n) = o.instrOf a b c := by
  rw [hn, ← nibbles_toNat, BitVec.ofNat_toNat, BitVec.setWidth_eq, decode_nibbles]

/-- Decoding a word given as the number of an opcode, a nibble and a byte. -/
theorem decode_ofNat_byte (o : Opcode) (a p q : BitVec 4) :
    decode (BitVec.ofNat 16 (o.field.toNat * 4096 + a.toNat * 256 + (p ++ q : Byte).toNat)) = o.instrOf a p q :=
  decode_ofNat o a p q (by rw [toNat_append_nibble, Nat.add_assoc _ (p.toNat * 16)])

/-- Decoding a word given as the number of an opcode and an operand field that the opcode ignores. -/
theorem decode_ofNat_field (o : Opcode) {i : Instr} (hi : ∀ p q r, o.instrOf p q r = i) (n : BitVec 12) :
    decode (BitVec.ofNat 16 (o.field.toNat * 4096 + n.toNat)) = i := by
  obtain ⟨p, q, r, hn⟩ := exists_field_nibbles n
  exact (decode_ofNat o p q r (by omega)).trans (hi p q r)

/-- Settles O3: every word of a format is its nibbles, and an ignored field is nibbles that the opcode does not use. -/
theorem opcodesAndFields : Obligations.OpcodesAndFields := by
  intro a b c j v m n
  obtain ⟨p, q, rfl⟩ := exists_byte_nibbles v
  obtain ⟨p', q', rfl⟩ := exists_byte_nibbles m
  exact ⟨decode_ofNat_field .nop (fun _ _ _ => rfl) n, decode_ofNat_field .hlt (fun _ _ _ => rfl) n,
    decode_ofNat .add a b c rfl, decode_ofNat .sub a b c rfl, decode_ofNat .and a b c rfl, decode_ofNat .or a b c rfl,
    decode_ofNat .xor a b c rfl, decode_ofNat .nor a b c rfl, decode_ofNat_byte .jmp j p q,
    decode_ofNat .rsh a j c rfl, decode_ofNat .lsh a j c rfl, decode_ofNat_byte .ldi a p q, decode_ofNat_byte .adi a p q,
    decode_ofNat_byte .brz j p q, decode_ofNat .plt a b j rfl, decode_ofNat_byte .seg a p' q'⟩

/-- Decoding inverts encoding: the encoder's word has the instruction's nibbles, whatever it puts for the others. -/
theorem decode_encode (i : Instr) : decode (encode i) = i := by
  cases i with
  | nop => exact decode_nibbles .nop 0 0 0
  | hlt => exact decode_nibbles .hlt 0 0 0
  | add a b c => exact decode_nibbles .add a b c
  | sub a b c => exact decode_nibbles .sub a b c
  | and a b c => exact decode_nibbles .and a b c
  | or a b c => exact decode_nibbles .or a b c
  | xor a b c => exact decode_nibbles .xor a b c
  | nor a b c => exact decode_nibbles .nor a b c
  | jmp addr =>
    obtain ⟨p, q, rfl⟩ := exists_byte_nibbles addr
    exact decode_append_byte .jmp 0 p q
  | rsh a c => exact decode_nibbles .rsh a 0 c
  | lsh a c => exact decode_nibbles .lsh a 0 c
  | ldi a imm =>
    obtain ⟨p, q, rfl⟩ := exists_byte_nibbles imm
    exact decode_append_byte .ldi a p q
  | adi a imm =>
    obtain ⟨p, q, rfl⟩ := exists_byte_nibbles imm
    exact decode_append_byte .adi a p q
  | brz addr =>
    obtain ⟨p, q, rfl⟩ := exists_byte_nibbles addr
    exact decode_append_byte .brz 0 p q
  | plt a b => exact decode_nibbles .plt a b 0
  | seg a => exact decode_append_byte .seg a 0 0

/-- Settles O1: the two bytes of an instruction are its word, which decodes to it. -/
theorem decodeOfEncode : Obligations.DecodeOfEncode := fun i rest =>
  ⟨decode_encode i, by rw [decodeBytes_encodeBytes, decode_encode]⟩

/-- Settles O4, by evaluation: a fixed table of words. -/
theorem wordsWrittenOut : Obligations.WordsWrittenOut := by
  unfold Obligations.WordsWrittenOut
  decide

/-! The bits a format reads. -/

/-- The read mask of an opcode as the masks of the three nibbles below the opcode field (30_encoding.md R58 to R64). -/
def Opcode.nibbleMasks : Opcode → BitVec 4 × BitVec 4 × BitVec 4
  | .nop => (0, 0, 0)
  | .hlt => (0, 0, 0)
  | .add => (15, 15, 15)
  | .sub => (15, 15, 15)
  | .and => (15, 15, 15)
  | .or => (15, 15, 15)
  | .xor => (15, 15, 15)
  | .nor => (15, 15, 15)
  | .jmp => (0, 15, 15)
  | .rsh => (15, 0, 15)
  | .lsh => (15, 0, 15)
  | .ldi => (15, 15, 15)
  | .adi => (15, 15, 15)
  | .brz => (0, 15, 15)
  | .plt => (15, 15, 0)
  | .seg => (15, 0, 0)

theorem Opcode.readMask_eq_nibbles (o : Opcode) :
    o.readMask = nibbles 15 o.nibbleMasks.1 o.nibbleMasks.2.1 o.nibbleMasks.2.2 := by
  cases o <;> rfl

theorem nibbles_and_nibbles (o a b c o' a' b' c' : BitVec 4) :
    nibbles o a b c &&& nibbles o' a' b' c' = nibbles (o &&& o') (a &&& a') (b &&& b') (c &&& c') := by
  rw [BitVec.and_append, BitVec.and_append, BitVec.and_append]

/-- A word determines its nibbles. -/
theorem nibbles_inj {o a b c o' a' b' c' : BitVec 4} :
    nibbles o a b c = nibbles o' a' b' c' ↔ o = o' ∧ a = a' ∧ b = b' ∧ c = c' := by
  refine ⟨fun h => ⟨?_, ?_, ?_, ?_⟩, by rintro ⟨rfl, rfl, rfl, rfl⟩; rfl⟩
  · simpa using congrArg Word.op h
  · simpa using congrArg Word.a h
  · simpa using congrArg Word.b h
  · simpa using congrArg Word.c h

/-- Two nibbles determine, and are determined by, their byte. -/
theorem append_nibble_inj {p q p' q' : BitVec 4} : (p ++ q : Byte) = p' ++ q' ↔ p = p' ∧ q = q' := by
  refine ⟨fun h => ?_, by rintro ⟨rfl, rfl⟩; rfl⟩
  have hnat := congrArg BitVec.toNat h
  rw [toNat_append_nibble, toNat_append_nibble] at hnat
  have hq := q.isLt
  have hq' := q'.isLt
  exact ⟨BitVec.eq_of_toNat_eq (by omega), BitVec.eq_of_toNat_eq (by omega)⟩

/-- The mask of all four bits of a nibble. -/
theorem and_fifteen (p : BitVec 4) : p &&& 15#4 = p := BitVec.and_allOnes

/-- Two triples of nibbles give one instruction of an opcode exactly when they agree under its masks. -/
theorem Opcode.instrOf_inj (o : Opcode) (a b c a' b' c' : BitVec 4) :
    o.instrOf a b c = o.instrOf a' b' c' ↔
      a &&& o.nibbleMasks.1 = a' &&& o.nibbleMasks.1 ∧ b &&& o.nibbleMasks.2.1 = b' &&& o.nibbleMasks.2.1 ∧
        c &&& o.nibbleMasks.2.2 = c' &&& o.nibbleMasks.2.2 := by
  cases o <;> simp [Opcode.instrOf, Opcode.nibbleMasks, and_fifteen, append_nibble_inj]

/-- Settles O2: with unequal opcodes the instructions differ in theirs; with one opcode both sides say that the nibbles
agree under its masks. -/
theorem sameInstructionIffReadBitsAgree : Obligations.SameInstructionIffReadBitsAgree := by
  intro w v
  by_cases hop : Word.op w = Word.op v
  case neg =>
    refine iff_of_false (fun h => hop ?_) (fun h => hop h.1)
    have hsel : Opcode.ofField (Word.op w) = Opcode.ofField (Word.op v) := by
      rw [← opcode_decode, ← opcode_decode, h]
    simpa using congrArg Opcode.field hsel
  case pos =>
    have hmasked : w &&& (Opcode.ofField (Word.op w)).readMask = v &&& (Opcode.ofField (Word.op w)).readMask ↔
        decode w = decode v := by
      rw [decode_eq_instrOf w, decode_eq_instrOf v, ← hop, Opcode.instrOf_inj, Word.eq_nibbles w, Word.eq_nibbles v,
        Opcode.readMask_eq_nibbles, nibbles_and_nibbles, nibbles_and_nibbles, nibbles_inj]
      simp [hop]
    rw [hmasked]
    simp [hop]

end Sys2Proof

/-! PROOFS. What an instruction does, as one change of the state chosen from the registers, Z and the parameters alone
(40_engine.md R91, R93). The frame of every instruction (10_state.md R15, R24) is read off the change, and two states that
agree in all that a step reads are changed alike: so no run depends on what no step reads (10_state.md sections 3 and 5). -/

namespace Sys2Proof.Machine

/-- The changes that the execute phase of an instruction can make. -/
inductive Update where
  | keep
  | halt
  | setPc (t : Byte)
  | setReg (d : RegIdx) (v : Byte)
  | writeResult (d : RegIdx) (res : Byte) (zf cf : Bool)
  | toggleCell (u v : Fin 24)
  | setSeg (v : Byte)

/-- The state after a change. -/
def Update.apply : Update → State → State
  | .keep, s => s
  | .halt, s => s.halt
  | .setPc t, s => s.setPc t
  | .setReg d v, s => s.setReg d v
  | .writeResult d res zf cf, s => s.writeResult d res zf cf
  | .toggleCell u v, s => s.toggleCell u v
  | .setSeg v, s => s.setSeg v

/-- The change an instruction makes in a state. -/
def updateOf : Instr → State → Update
  | .nop, _ => .keep
  | .hlt, _ => .halt
  | .add a b c, s => .writeResult c (mask8 (s.regInt a + s.regInt b)) (zeroOf (mask8 (s.regInt a + s.regInt b)))
      (carryOf (s.regInt a + s.regInt b))
  | .sub a b c, s => .writeResult c (mask8 (s.regInt a - s.regInt b)) (zeroOf (mask8 (s.regInt a - s.regInt b)))
      (borrowOf (s.regInt a - s.regInt b))
  | .and a b c, s => .writeResult c (s.reg a &&& s.reg b) (zeroOf (s.reg a &&& s.reg b)) false
  | .or a b c, s => .writeResult c (s.reg a ||| s.reg b) (zeroOf (s.reg a ||| s.reg b)) false
  | .xor a b c, s => .writeResult c (s.reg a ^^^ s.reg b) (zeroOf (s.reg a ^^^ s.reg b)) false
  | .nor a b c, s => .writeResult c (~~~(s.reg a ||| s.reg b)) (zeroOf (~~~(s.reg a ||| s.reg b))) false
  | .jmp addr, _ => .setPc addr
  | .rsh a c, s => .writeResult c (s.reg a >>> 1) (zeroOf (s.reg a >>> 1)) false
  | .lsh a c, s => .writeResult c (mask8 (2 * s.regInt a)) (zeroOf (mask8 (2 * s.regInt a))) false
  | .ldi a imm, _ => .setReg a imm
  | .adi a imm, s => .writeResult a (mask8 (s.regInt a + immInt imm))
      (adiZero s.params.adiFlags (s.regInt a + immInt imm) (mask8 (s.regInt a + immInt imm)))
      (adiCarry s.params.adiFlags (s.regInt a + immInt imm))
  | .brz addr, s => if s.z then .setPc addr else .keep
  | .plt a b, s => .toggleCell (plotCoord (s.reg a)) (plotCoord (s.reg b))
  | .seg a, s => .setSeg (s.reg a)

section
variable {i : Instr} {s t : State}

theorem updateOf_brz_of_zero (addr : Byte) (hz : s.z = true) : updateOf (.brz addr) s = .setPc addr := by
  rw [updateOf, if_pos hz]

theorem updateOf_brz_of_not_zero (addr : Byte) (hz : s.z = false) : updateOf (.brz addr) s = .keep := by
  rw [updateOf, if_neg (by simp [hz])]

/-- The execute phase of an instruction answers the state changed by its change. -/
theorem exec_eq_update (i : Instr) (s : State) : exec i s = .next ((updateOf i s).apply s) := by
  cases i with
  | nop => exact exec_nop s
  | hlt => exact exec_hlt s
  | add a b c => exact exec_add a b c s
  | sub a b c => exact exec_sub a b c s
  | and a b c => exact exec_and a b c s
  | or a b c => exact exec_or a b c s
  | xor a b c => exact exec_xor a b c s
  | nor a b c => exact exec_nor a b c s
  | jmp addr => exact exec_jmp addr s
  | rsh a c => exact exec_rsh a c s
  | lsh a c => exact exec_lsh a c s
  | ldi a imm => exact exec_ldi a imm s
  | adi a imm => exact exec_adi a imm s
  | brz addr =>
    cases hz : s.z with
    | true => rw [updateOf_brz_of_zero addr hz, exec_brz_of_zero addr hz]; rfl
    | false => rw [updateOf_brz_of_not_zero addr hz, exec_brz_of_not_zero addr hz]; rfl
  | plt a b => exact exec_plt a b s
  | seg a => exact exec_seg a s

theorem eq_apply_of_exec (h : exec i s = .next t) : t = (updateOf i s).apply s :=
  Host.Outcome.next.inj (h.symm.trans (exec_eq_update i s))

/-! The frame: which instructions make which changes, and what the other changes keep. -/

/-- HLT alone halts (41_system.md R97). -/
theorem eq_hlt_of_updateOf (h : updateOf i s = .halt) : i = .hlt := by
  cases i with
  | hlt => rfl
  | brz addr => cases hz : s.z <;> simp [updateOf, hz] at h
  | _ => cases h

/-- SEG alone writes the segment value (45_output.md R116). -/
theorem eq_seg_of_updateOf {v : Byte} (h : updateOf i s = .setSeg v) : ∃ a, i = .seg a := by
  cases i with
  | seg a => exact ⟨a, rfl⟩
  | brz addr => cases hz : s.z <;> simp [updateOf, hz] at h
  | _ => cases h

/-- PLT alone toggles a cell, the one at its two plot coordinates (45_output.md R115). -/
theorem eq_plt_of_updateOf {u v : Fin 24} (h : updateOf i s = .toggleCell u v) :
    ∃ a b, i = .plt a b ∧ u = plotCoord (s.reg a) ∧ v = plotCoord (s.reg b) := by
  cases i with
  | plt a b =>
    cases h
    exact ⟨a, b, rfl, rfl, rfl⟩
  | brz addr => cases hz : s.z <;> simp [updateOf, hz] at h
  | _ => cases h

/-- Only an instruction listed as writing the flags writes a result with them (10_state.md R24). -/
theorem writesFlags_of_updateOf {d : RegIdx} {res : Byte} {zf cf : Bool} (h : updateOf i s = .writeResult d res zf cf) :
    writesFlags i = true := by
  cases i with
  | brz addr => cases hz : s.z <;> simp [updateOf, hz] at h
  | nop | hlt | jmp | ldi | plt | seg => cases h
  | _ => rfl

theorem exec_sameFlags (hi : writesFlags i = false) (h : exec i s = .next t) : SameFlags s t := by
  rw [eq_apply_of_exec h]
  cases hu : updateOf i s with
  | writeResult d res zf cf => exact Bool.noConfusion (hi.symm.trans (writesFlags_of_updateOf hu))
  | _ => exact ⟨rfl, rfl⟩

theorem exec_h_of_ne_hlt (hi : i ≠ .hlt) (h : exec i s = .next t) : t.h = s.h := by
  rw [eq_apply_of_exec h]
  cases hu : updateOf i s with
  | halt => exact absurd (eq_hlt_of_updateOf hu) hi
  | _ => rfl

theorem exec_seg_of_ne_seg (hi : ∀ a, i ≠ .seg a) (h : exec i s = .next t) : t.seg = s.seg := by
  rw [eq_apply_of_exec h]
  cases hu : updateOf i s with
  | setSeg v =>
    obtain ⟨a, ha⟩ := eq_seg_of_updateOf hu
    exact absurd ha (hi a)
  | _ => rfl

/-- A cell that no PLT of the instruction computes is kept (10_state.md R28). -/
theorem exec_cell_of_not_plotted {u v : Fin 24}
    (hi : ∀ a b, i = .plt a b → ¬(u = plotCoord (s.reg a) ∧ v = plotCoord (s.reg b))) (h : exec i s = .next t) :
    t.cell u v = s.cell u v := by
  rw [eq_apply_of_exec h]
  cases hu : updateOf i s with
  | toggleCell p q =>
    obtain ⟨a, b, hplt, rfl, rfl⟩ := eq_plt_of_updateOf hu
    exact (s.cell_toggleCell _ _ u v).trans (if_neg (hi a b hplt))
  | _ => rfl

theorem exec_params (h : exec i s = .next t) : t.params = s.params := by
  rw [eq_apply_of_exec h]
  cases updateOf i s <;> rfl

/-- A register that an instruction does not list as written is kept (10_state.md R15). -/
theorem exec_reg_of_not_written {r : RegIdx} (hr : regWritten i ≠ some r) (h : exec i s = .next t) :
    t.reg r = s.reg r := by
  obtain ⟨t', _, ht', -, -, -, hkept⟩ := regAccess_of_reads_agree i (s := s) (s' := s) (fun _ _ => rfl) rfl
  obtain rfl := Host.Outcome.next.inj (h.symm.trans ht')
  exact (hkept r hr).1

end

/-- Settles O25, clause by clause. -/
theorem execFrame : Obligations.ExecFrame := by
  intro i s t h
  have hmem : t.mem = s.mem := exec_mem h
  exact ⟨fun _ hr => exec_reg_of_not_written hr h, fun hi => exec_sameFlags hi h, fun hi => exec_h_of_ne_hlt hi h,
    fun hi => exec_pc_of_not_transfer hi h, fun hi => exec_seg_of_ne_seg hi h,
    fun _ _ hi => exec_cell_of_not_plotted hi h, ⟨fun a => by rw [hmem], hmem⟩, exec_params h⟩

/-! Runs of two states together. -/

/-- Two states agree in everything that a step reads: all but Carry and the outputs (10_state.md sections 3 and 5). -/
structure SameReads (s t : State) : Prop where
  x : s.x = t.x
  pc : s.pc = t.pc
  z : s.z = t.z
  h : s.h = t.h
  mem : s.mem = t.mem
  params : s.params = t.params

/-- An instruction makes the same change in two states that agree in the registers, Z and the parameters. -/
theorem updateOf_congr (i : Instr) {s t : State} (hx : s.x = t.x) (hz : s.z = t.z) (hp : s.params = t.params) :
    updateOf i s = updateOf i t := by
  have hreg (a : RegIdx) : s.reg a = t.reg a := by rw [State.reg, State.reg, hx]
  have hint (a : RegIdx) : s.regInt a = t.regInt a := State.regInt_congr (hreg a)
  cases i with
  | nop | hlt | jmp | ldi => rfl
  | add | sub | lsh => simp only [updateOf, hint]
  | and | or | xor | nor | rsh | plt | seg => simp only [updateOf, hreg]
  | adi => simp only [updateOf, hint, hp]
  | brz => simp only [updateOf, hz]

/-- A relation of states that agree in everything a step reads, and that no change, no load and no reset ends. -/
structure Indistinct (R : State → State → Prop) : Prop where
  refl : ∀ s, R s s
  reads : ∀ {s t}, R s t → SameReads s t
  update : ∀ {s t}, R s t → ∀ u : Update, R (u.apply s) (u.apply t)
  setMem : ∀ {s t}, R s t → ∀ m : Memory, R { s with mem := m } { t with mem := m }

section
variable {R : State → State → Prop} {s t : State}

/-- Two related states step to related states: the same instruction makes the same change in both. -/
theorem Indistinct.step (hR : Indistinct R) (h : R s t) :
    ∃ s' t', Machine.step s = .next s' ∧ Machine.step t = .next t' ∧ R s' t' := by
  obtain ⟨hx, hpc, hz, hh, hmem, hparams⟩ := hR.reads h
  cases hs : s.h with
  | true => exact ⟨s, t, step_of_halted hs, step_of_halted (hh ▸ hs), h⟩
  | false =>
    have hword : decode t.fetchWord = decode s.fetchWord := by rw [State.fetchWord_congr hmem hpc]
    have hadvance : R s.advancePc t.advancePc := by
      rw [State.advancePc, State.advancePc, ← hpc]
      exact hR.update h (.setPc (s.pc + 2))
    have hupdate : updateOf (decode s.fetchWord) t.advancePc = updateOf (decode s.fetchWord) s.advancePc :=
      (updateOf_congr _ (s := s.advancePc) (t := t.advancePc) hx hz hparams).symm
    refine ⟨_, _, (step_of_running hs).trans (exec_eq_update _ _),
      (step_of_running (hh ▸ hs)).trans (exec_eq_update _ _), ?_⟩
    rw [hword, hupdate]
    exact hR.update hadvance _

/-- Two related states are loaded to related states: the loader's check does not look at the state. -/
theorem Indistinct.load (hR : Indistinct R) (h : R s t) (b : List Byte) : R (s.load b) (t.load b) := by
  rcases Nat.lt_or_ge 256 b.length with hlong | hfits
  · rwa [State.load_of_gt hlong, State.load_of_gt hlong]
  · rw [State.load_of_le hfits, State.load_of_le hfits, (hR.reads h).mem]
    exact hR.setMem h _

/-- Two related states are reset to one state: a reset reads memory and the parameters alone. -/
theorem Indistinct.hostReset_eq (hR : Indistinct R) (h : R s t) : s.hostReset = t.hostReset := by
  rw [State.hostReset, State.hostReset, (hR.reads h).params, (hR.reads h).mem]

/-- Every host operation answers related states in related states. -/
theorem Indistinct.hostOp (hR : Indistinct R) (op : HostOp) (h : R s t) :
    ∃ s' t', Machine.hostOp op s = .next s' ∧ Machine.hostOp op t = .next t' ∧ R s' t' := by
  cases op with
  | reset => exact ⟨_, _, hostOp_reset s, hostOp_reset t, hR.hostReset_eq h ▸ hR.refl _⟩
  | load b => exact ⟨_, _, hostOp_load b s, hostOp_load b t, hR.load h b⟩
  | step => exact hR.step h
  | writeInput k => exact ⟨_, _, hostOp_writeInput k s, hostOp_writeInput k t, hR.update h (.setReg 15 k.code)⟩
  | readOutputs => exact ⟨_, _, hostOp_readOutputs s, hostOp_readOutputs t, h⟩
  | readState => exact ⟨_, _, hostOp_readState s, hostOp_readState t, h⟩

/-- The same list of host operations takes related states to related states. -/
theorem Indistinct.runHost (hR : Indistinct R) (ops : List HostOp) (h : R s t) :
    ∃ s' t', Machine.runHost ops s = .next s' ∧ Machine.runHost ops t = .next t' ∧ R s' t' := by
  induction ops generalizing s t with
  | nil => exact ⟨s, t, runHost_nil s, runHost_nil t, h⟩
  | cons op ops ih =>
    obtain ⟨s₁, t₁, hs, ht, h₁⟩ := hR.hostOp op h
    obtain ⟨s', t', hs', ht', h'⟩ := ih h₁
    exact ⟨s', t', (runHost_cons hs).trans hs', (runHost_cons ht).trans ht', h'⟩

end

/-- States that differ in Carry alone are changed alike, and a result written makes their Carry equal. -/
theorem SameButCarry.update {s t : State} (h : SameButCarry s t) (u : Update) :
    SameButCarry (u.apply s) (u.apply t) := by
  cases u with
  | keep => exact h
  | halt => exact { h with h := rfl }
  | setPc p => exact { h with pc := rfl }
  | setReg d v => exact { h with x := congrArg (·.set d.toNat v d.isLt) h.x }
  | writeResult d res zf cf => exact { h with x := congrArg (·.set d.toNat res d.isLt) h.x, z := rfl }
  | toggleCell p q => exact { h with fb := congrArg (fun fb => fb.set p (fb[p].set q (!fb[p][q]))) h.fb }
  | setSeg v => exact { h with seg := rfl }

/-- States that differ in the outputs alone are changed alike, whatever becomes of the outputs. -/
theorem SameButOutputs.update {s t : State} (h : SameButOutputs s t) (u : Update) :
    SameButOutputs (u.apply s) (u.apply t) := by
  cases u with
  | keep => exact h
  | halt => exact { h with h := rfl }
  | setPc p => exact { h with pc := rfl }
  | setReg d v => exact { h with x := congrArg (·.set d.toNat v d.isLt) h.x }
  | writeResult d res zf cf => exact { h with x := congrArg (·.set d.toNat res d.isLt) h.x, z := rfl, c := rfl }
  | toggleCell p q => exact { h with }
  | setSeg v => exact { h with }

theorem indistinct_sameButCarry : Indistinct SameButCarry where
  refl _ := ⟨rfl, rfl, rfl, rfl, rfl, rfl, rfl, rfl⟩
  reads h := { h with }
  update := SameButCarry.update
  setMem h _ := { h with mem := rfl }

theorem indistinct_sameButOutputs : Indistinct SameButOutputs where
  refl _ := ⟨rfl, rfl, rfl, rfl, rfl, rfl, rfl⟩
  reads h := { h with }
  update := SameButOutputs.update
  setMem h _ := { h with mem := rfl }

/-- Settles O27: states that differ in Carry alone are indistinct. -/
theorem carryIsNeverRead : Obligations.CarryIsNeverRead := fun ops _ _ h => indistinct_sameButCarry.runHost ops h

/-- Settles O28: states that differ in the outputs alone are indistinct. -/
theorem outputsAreNeverRead : Obligations.OutputsAreNeverRead := fun ops _ _ h => indistinct_sameButOutputs.runHost ops h

end Sys2Proof.Machine

/-! PROOFS. The canonical form of memory (20_memory.md section 1): every host operation keeps it, and it is exact, so that
memories in it are equal when they read alike. What is written at an address is read back there, so a placed instruction is
the one fetched. -/

namespace Sys2Proof.Machine

section
variable {s t : State} {op : HostOp}

/-- A load keeps the canonical form, whether it is performed or refused. -/
theorem State.load_inv (hs : s.Inv) (b : List Byte) : (s.load b).Inv := by
  rcases Nat.lt_or_ge 256 b.length with hlong | hfits
  · rwa [State.load_of_gt hlong]
  · rw [State.load_of_le hfits]
    exact Memory.wf_writeFrom hs 0 b

/-- Every host operation keeps the canonical form: a load writes byte by byte, and no other operation writes memory. -/
theorem hostOp_inv (hs : s.Inv) (h : hostOp op s = .next t) : t.Inv := by
  cases hop : op.isLoad with
  | false => rwa [State.Inv, hostOp_mem_of_not_load hop h]
  | true =>
    cases op with
    | load b =>
      obtain rfl := Host.Outcome.next.inj ((hostOp_load b s).symm.trans h)
      exact s.load_inv hs b
    | _ => cases hop

/-- Every host operation answers a next state (60_exceptions.md R133). -/
theorem hostOp_answers (op : HostOp) (s : State) : ∃ t, hostOp op s = .next t := by
  cases op with
  | reset => exact ⟨_, hostOp_reset s⟩
  | load b => exact ⟨_, hostOp_load b s⟩
  | step => exact step_safe s
  | writeInput k => exact ⟨_, hostOp_writeInput k s⟩
  | readOutputs => exact ⟨_, hostOp_readOutputs s⟩
  | readState => exact ⟨_, hostOp_readState s⟩

end

/-- Settles O30: a step is a host operation, and a run keeps what each of its operations keeps. -/
theorem stepKeepsInv : Obligations.StepKeepsInv := fun s hs =>
  ⟨fun _ h => hostOp_inv hs ((hostOp_step s).trans h),
    fun _ _ h => runHost_keeps (fun _ _ _ _ hu hv => hostOp_inv hu hv) hs h⟩

/-- Settles O31: the memory of reset lists nothing, and that of power-on is INIT_MEM. -/
theorem invAtReset : Obligations.InvAtReset := ⟨State.reset_mem_wf, fun _ _ hm => hm⟩

/-- Settles O36: a run goes on after each of its operations. -/
theorem hostRunNeverFails : Obligations.HostRunNeverFails := by
  intro ops s
  have hkeep : ∀ op ∈ ops, ∀ u, True → ∃ v, hostOp op u = .next v ∧ True := fun op _ u _ =>
    (hostOp_answers op u).imp fun _ hv => ⟨hv, trivial⟩
  obtain ⟨t, ht, -⟩ := runHost_answers hkeep trivial (s := s)
  exact ⟨t, ht⟩

/-! The canonical form is exact. -/

/-- The canonical form of a list with a first cell, in its parts. -/
theorem Memory.wfFrom_cons {lo k : Nat} {v : Byte} {rest : Memory} :
    Memory.wfFrom lo ((k, v) :: rest) = true ↔
      lo ≤ k ∧ k < 256 ∧ v ≠ Config.unlistedByte ∧ Memory.wfFrom (k + 1) rest = true := by
  simp only [Memory.wfFrom, Bool.and_eq_true, decide_eq_true_eq, and_assoc]

@[simp] theorem Memory.lookup_cons_same (k : Nat) (v : Byte) (rest : Memory) :
    Memory.lookup ((k, v) :: rest) k = v := if_pos rfl

theorem Memory.lookup_cons_ne {k a : Nat} (v : Byte) (rest : Memory) (h : k ≠ a) :
    Memory.lookup ((k, v) :: rest) a = Memory.lookup rest a := if_neg h

/-- A canonical list that reads as unlisted at the first address of another one, and below, does not agree with it. -/
theorem Memory.not_agree_of_below {m rest : Memory} {lo lo' k : Nat} {v : Byte}
    (hc : Memory.wfFrom lo ((k, v) :: rest) = true) (hm : m.wfFrom lo' = true) (hk : k < lo') :
    ¬ ∀ a, a < 256 → Memory.lookup ((k, v) :: rest) a = m.lookup a := by
  intro hagree
  obtain ⟨-, hk256, hv, -⟩ := Memory.wfFrom_cons.mp hc
  have hread := hagree k hk256
  rw [Memory.lookup_cons_same, Memory.lookup_below hm hk] at hread
  exact hv hread

/-- Canonical lists that agree at every address are equal, cell by cell: the first addresses are equal, because the smaller
one would be unlisted on the other side. -/
theorem Memory.eq_of_lookup_eq {m n : Memory} {lo : Nat} (hm : m.wfFrom lo = true) (hn : n.wfFrom lo = true)
    (hagree : ∀ a, a < 256 → m.lookup a = n.lookup a) : m = n := by
  induction m generalizing n lo with
  | nil =>
    cases n with
    | nil => rfl
    | cons q rest =>
      exact absurd (fun a ha => (hagree a ha).symm)
        (Memory.not_agree_of_below hn (m := []) (lo' := q.1 + 1) rfl (Nat.lt_succ_self _))
  | cons p rest ih =>
    cases n with
    | nil => exact absurd hagree (Memory.not_agree_of_below hm (m := []) (lo' := p.1 + 1) rfl (Nat.lt_succ_self _))
    | cons q rest' =>
      obtain ⟨k, v⟩ := p
      obtain ⟨k', v'⟩ := q
      obtain ⟨-, hk, hv, hrest⟩ := Memory.wfFrom_cons.mp hm
      obtain ⟨-, hk', hv', hrest'⟩ := Memory.wfFrom_cons.mp hn
      rcases Nat.lt_trichotomy k k' with hlt | rfl | hgt
      · exact absurd hagree
          (Memory.not_agree_of_below hm (lo' := k') (Memory.wfFrom_cons.mpr ⟨le_refl _, hk', hv', hrest'⟩) hlt)
      · have hval : v = v' := by simpa using hagree k hk
        have htail : rest = rest' := by
          refine ih hrest hrest' fun a ha => ?_
          by_cases hka : k = a
          · subst hka
            rw [Memory.lookup_below hrest (Nat.lt_succ_self k), Memory.lookup_below hrest' (Nat.lt_succ_self k)]
          · have hread := hagree a ha
            rwa [Memory.lookup_cons_ne v rest hka, Memory.lookup_cons_ne v' rest' hka] at hread
        rw [hval, htail]
      · exact absurd (fun a ha => (hagree a ha).symm)
          (Memory.not_agree_of_below hn (lo' := k) (Memory.wfFrom_cons.mpr ⟨le_refl _, hk, hv, hrest⟩) hgt)

/-- A read below the size of memory is a lookup (20_memory.md R33). -/
theorem Memory.read_of_lt (m : Memory) {a : Nat} (ha : a < 256) : m.read a = m.lookup a :=
  congrArg m.lookup (Nat.mod_eq_of_lt ha)

/-- Settles O32: reads below 256 are lookups, and canonical lists are determined by them. -/
theorem canonicalMemoriesEqual : Obligations.CanonicalMemoriesEqual := fun m n hm hn hread =>
  Memory.eq_of_lookup_eq hm hn fun a ha => by rw [← m.read_of_lt ha, ← n.read_of_lt ha, hread a ha]

/-! A placed instruction. -/

theorem State.withFetchWord_mem (s : State) (nbits w : Nat) : (s.withFetchWord nbits w).mem =
    (s.mem.write s.pc.toNat (tableWord nbits w).byte1).write (s.pc.toNat + 1) (tableWord nbits w).byte2 := rfl

/-- A placed instruction is the one fetched: its two bytes lie at the different addresses pc and pc + 1, modulo 256. -/
theorem State.fetchWord_withFetchWord {s : State} (hs : s.Inv) (nbits w : Nat) :
    (s.withFetchWord nbits w).fetchWord = tableWord nbits w := by
  have hne : s.pc.toNat % 256 ≠ (s.pc.toNat + 1) % 256 := by omega
  have hwf := Memory.wf_write hs s.pc.toNat (Word.byte1 (tableWord nbits w))
  have hbyte1 : (s.withFetchWord nbits w).mem.read s.pc.toNat = Word.byte1 (tableWord nbits w) := by
    rw [s.withFetchWord_mem, Memory.read_write hwf, if_neg hne, Memory.read_write hs, if_pos rfl]
  have hbyte2 : (s.withFetchWord nbits w).mem.read (s.pc.toNat + 1) = Word.byte2 (tableWord nbits w) := by
    rw [s.withFetchWord_mem, Memory.read_write hwf, if_pos rfl]
  calc (s.withFetchWord nbits w).fetchWord
    _ = wordOfBytes (Word.byte1 (tableWord nbits w)) (Word.byte2 (tableWord nbits w)) := by rw [← hbyte1, ← hbyte2]; rfl
    _ = tableWord nbits w := wordOfBytes_bytes _

/-- Settles O43: a number below 65536 is the number of its word of 16 bits. -/
theorem placedInstructionIsFetched : Obligations.PlacedInstructionIsFetched := by
  intro s w hs hw
  refine ⟨?_, rfl, rfl, State.withFetchWord_mem_wf hs 16 w⟩
  rw [State.fetchWord_withFetchWord hs, tableWord, BitVec.toNat_ofNat, Nat.mod_mod]
  exact Nat.mod_eq_of_lt hw

end Sys2Proof.Machine

/-! PROOFS. The instructions outside the ALU (41_system.md, 43_control.md, 44_immediate.md, 45_output.md). Each is one
update of the state, and what it keeps is what that update keeps. -/

namespace Sys2Proof.Machine

/-! What each update keeps. -/

section
variable (s : State)

theorem SameMemory.refl : SameMemory s s := ⟨fun _ => rfl, rfl⟩

theorem SameFlags.refl : SameFlags s s := ⟨rfl, rfl⟩

theorem SameButPc.refl : SameButPc s s :=
  ⟨fun _ => rfl, .refl s, rfl, fun _ _ => rfl, rfl, .refl s, rfl⟩

theorem State.halt_sameButHalt : SameButHalt s s.halt where
  regs := s.reg_halt
  flags := ⟨s.halt_z, s.halt_c⟩
  pc := s.halt_pc
  cells _ _ := rfl
  seg := s.halt_seg
  mem := ⟨fun _ => rfl, s.halt_mem⟩
  params := s.halt_params

theorem State.setPc_sameButPc (p : Byte) : SameButPc s (s.setPc p) where
  regs := s.reg_setPc p
  flags := ⟨s.setPc_z p, s.setPc_c p⟩
  h := s.setPc_h p
  cells _ _ := rfl
  seg := s.setPc_seg p
  mem := ⟨fun _ => rfl, s.setPc_mem p⟩
  params := s.setPc_params p

theorem State.toggleCell_sameButCells (u v : Fin 24) : SameButCells s (s.toggleCell u v) where
  regs := s.reg_toggleCell u v
  flags := ⟨s.toggleCell_z u v, s.toggleCell_c u v⟩
  pc := s.toggleCell_pc u v
  h := s.toggleCell_h u v
  seg := s.toggleCell_seg u v
  mem := ⟨fun _ => rfl, s.toggleCell_mem u v⟩
  params := s.toggleCell_params u v

theorem State.setSeg_sameButSeg (v : Byte) : SameButSeg s (s.setSeg v) where
  regs := s.reg_setSeg v
  flags := ⟨s.setSeg_z v, s.setSeg_c v⟩
  pc := s.setSeg_pc v
  h := s.setSeg_h v
  cells _ _ := rfl
  mem := ⟨fun _ => rfl, s.setSeg_mem v⟩
  params := s.setSeg_params v

end

/-- Settles O10: NOP is no update and HLT sets H. -/
theorem nopAndHltResults : Obligations.NopAndHltResults := fun s =>
  ⟨exec_nop s, s.halt, exec_hlt s, s.halt_h, s.halt_sameButHalt⟩

/-- Settles O17: a jump and a branch taken set pc, and a branch not taken is no update. -/
theorem jumpAndBranchResults : Obligations.JumpAndBranchResults := by
  intro addr s
  refine ⟨⟨s.setPc addr, exec_jmp addr s, s.setPc_pc addr, s.setPc_sameButPc addr⟩, ?_⟩
  cases hz : s.z with
  | true =>
    exact ⟨s.setPc addr, exec_brz_of_zero addr hz, fun _ => s.setPc_pc addr, nofun, s.setPc_sameButPc addr⟩
  | false => exact ⟨s, exec_brz_of_not_zero addr hz, nofun, fun _ => rfl, .refl s⟩

/-- Settles O19: SEG sets the segment value. -/
theorem segResult : Obligations.SegResult := fun a s =>
  ⟨s.setSeg (s.reg a), exec_seg a s, s.setSeg_seg _, s.setSeg_sameButSeg _⟩

/-! PLT. -/

/-- Settles O18: PLT toggles the cell at its two plot coordinates, which are its registers modulo 24. -/
theorem plotResult : Obligations.PlotResult := by
  intro a b s
  refine ⟨_, exec_plt a b s, fun u v => ?_, s.toggleCell_sameButCells _ _⟩
  rw [s.cell_toggleCell]
  simp only [Fin.ext_iff, plotCoord_val]

/-- A framebuffer is determined by its cells. -/
theorem State.fb_ext {s t : State} (h : ∀ u v : Fin 24, s.cell u v = t.cell u v) : s.fb = t.fb := by
  ext u hu v hv
  simpa [State.cell] using h ⟨u, hu⟩ ⟨v, hv⟩

/-- Toggling a cell twice restores the whole state: the cell is inverted twice, and a toggle keeps everything else. -/
theorem State.toggleCell_toggleCell (s : State) (u v : Fin 24) : (s.toggleCell u v).toggleCell u v = s := by
  have hcells (p q : Fin 24) : ((s.toggleCell u v).toggleCell u v).cell p q = s.cell p q := by
    rw [State.cell_toggleCell, State.cell_toggleCell]
    split
    · exact Bool.not_not _
    · rfl
  calc (s.toggleCell u v).toggleCell u v
    _ = { s with fb := ((s.toggleCell u v).toggleCell u v).fb } := rfl
    _ = s := by rw [State.fb_ext hcells]

/-- A plot coordinate depends on the register's value modulo 24 alone (45_output.md R115). -/
theorem plotCoord_congr {v w : Byte} (h : v.toNat % 24 = w.toNat % 24) : plotCoord v = plotCoord w := Fin.ext h

/-- Settles O24: both plots toggle one cell, because a toggle keeps the registers. -/
theorem plotTwiceRestores : Obligations.PlotTwiceRestores := by
  intro a b a' b' s ha hb
  refine ⟨_, exec_plt a b s, ?_⟩
  rw [exec_plt, State.reg_toggleCell, State.reg_toggleCell, ← plotCoord_congr ha, ← plotCoord_congr hb,
    State.toggleCell_toggleCell]

/-! ADI. Its raw sum, on naturals, decides the flags under each reading of ADI_FLAGS (44_immediate.md R114; log 3). -/

section
variable (s : State) (a : RegIdx) (imm : Byte)

/-- The raw sum of ADI as a natural. -/
theorem State.regInt_add_immInt : s.regInt a + immInt imm = ((s.reg a).toNat + imm.toNat : Nat) :=
  (Nat.cast_add _ _).symm

theorem State.mask8_regInt_add_immInt_toNat :
    (mask8 (s.regInt a + immInt imm)).toNat = ((s.reg a).toNat + imm.toNat) % 256 := by
  have hmask := mask8_toNat (s.regInt a + immInt imm)
  rw [s.regInt_add_immInt] at hmask ⊢
  omega

theorem State.zeroOf_mask8_regInt_add_immInt :
    zeroOf (mask8 (s.regInt a + immInt imm)) = decide (((s.reg a).toNat + imm.toNat) % 256 = 0) := by
  rw [zeroOf_eq, ← s.mask8_regInt_add_immInt_toNat]
  exact decide_eq_decide.mpr BitVec.toNat_inj.symm

theorem State.carryOf_regInt_add_immInt :
    carryOf (s.regInt a + immInt imm) = decide (255 < (s.reg a).toNat + imm.toNat) := by
  rw [carryOf, s.regInt_add_immInt]
  exact decide_eq_decide.mpr (by omega)

/-- Z of ADI by its raw sum: the masked reading, or the raw one. -/
theorem State.adiZero_eq (m : AdiFlags) :
    adiZero m (s.regInt a + immInt imm) (mask8 (s.regInt a + immInt imm)) =
      if m = .rawBoth then decide ((s.reg a).toNat + imm.toNat = 0)
      else decide (((s.reg a).toNat + imm.toNat) % 256 = 0) := by
  cases m with
  | masked => exact s.zeroOf_mask8_regInt_add_immInt a imm
  | rawCarry => exact s.zeroOf_mask8_regInt_add_immInt a imm
  | rawBoth =>
    rw [adiZero, s.regInt_add_immInt, if_pos rfl]
    exact decide_eq_decide.mpr (by omega)

/-- C of ADI by its raw sum: cleared, or the carry. -/
theorem State.adiCarry_eq (m : AdiFlags) :
    adiCarry m (s.regInt a + immInt imm) =
      if m = .masked then false else decide (255 < (s.reg a).toNat + imm.toNat) := by
  cases m with
  | masked => rfl
  | rawCarry => exact s.carryOf_regInt_add_immInt a imm
  | rawBoth => exact s.carryOf_regInt_add_immInt a imm

end

/-- Settles O16: the sum is masked into the register, and the reading of ADI_FLAGS selects the flags. -/
theorem adiResult : Obligations.AdiResult := by
  intro a imm s
  refine ⟨_, exec_adi a imm s, ?value, ?masked, ?rawCarry, ?rawBoth,
    fun r hr => (s.reg_writeResult a r _ _ _).trans (if_neg hr), s.writeResult_sameButRegsFlags a _ _ _⟩
  case value => rw [s.reg_writeResult_same, s.mask8_regInt_add_immInt_toNat]
  all_goals
    intro hm
    rw [s.adiZero_eq, s.adiCarry_eq, hm]
    exact ⟨rfl, rfl⟩

/-- Two readings of ADI_FLAGS give one Z, unless the raw sum is the one value that is 0 only when masked. -/
theorem State.adiZero_eq_of_ne (s : State) (a : RegIdx) (imm : Byte) (m m' : AdiFlags)
    (hsum : (s.reg a).toNat + imm.toNat ≠ 256) :
    adiZero m (s.regInt a + immInt imm) (mask8 (s.regInt a + immInt imm)) =
      adiZero m' (s.regInt a + immInt imm) (mask8 (s.regInt a + immInt imm)) := by
  have hreg := (s.reg a).isLt
  have himm := imm.isLt
  have hzero : decide ((s.reg a).toNat + imm.toNat = 0) = decide (((s.reg a).toNat + imm.toNat) % 256 = 0) :=
    decide_eq_decide.mpr (by omega)
  rw [s.adiZero_eq, s.adiZero_eq, hzero, ite_self, ite_self]

/-- Two readings of ADI_FLAGS give one C, when there is no carry. -/
theorem State.adiCarry_eq_of_le (s : State) (a : RegIdx) (imm : Byte) (m m' : AdiFlags)
    (hsum : (s.reg a).toNat + imm.toNat ≤ 255) :
    adiCarry m (s.regInt a + immInt imm) = adiCarry m' (s.regInt a + immInt imm) := by
  rw [s.adiCarry_eq, s.adiCarry_eq, decide_eq_false (Nat.not_lt.mpr hsum), ite_self, ite_self]

/-- Settles O23: under any two readings ADI writes one sum, and the flags agree where the readings do. -/
theorem adiReadingsAgree : Obligations.AdiReadingsAgree := by
  intro a imm s m m'
  exact ⟨_, _, exec_adi a imm _, exec_adi a imm _, rfl, fun hsum => s.adiZero_eq_of_ne a imm m m' hsum,
    fun hsum => s.adiCarry_eq_of_le a imm m m' hsum⟩

/-! Reset, power-on and input. -/

/-- Every cell of a blank framebuffer is 0 (10_state.md R28). -/
theorem State.blankFb_getElem (u v : Fin 24) : State.blankFb[u][v] = false := by
  simp [State.blankFb]

/-- Settles O37: a reset is power-on with the machine's own parameters and memory. -/
theorem resetValues : Obligations.ResetValues := fun s =>
  ⟨s.hostReset, hostOp_reset s, fun _ => rfl, s.hostReset_pc, s.hostReset_z, s.hostReset_c, s.hostReset_h,
    State.blankFb_getElem, s.hostReset_seg, ⟨fun _ => rfl, s.hostReset_mem⟩, s.hostReset_params⟩

/-- Settles O38: the standard parameters and an empty memory, in which every address reads as unlisted. -/
theorem powerOnState : Obligations.PowerOnState :=
  ⟨fun r => Vector.getElem_replicate r.isLt, rfl, rfl, rfl, rfl, State.blankFb_getElem, rfl, fun _ => rfl, rfl⟩

/-- Settles O41: an input write is a write of register 15; the codes and the priority are tables. -/
theorem inputWrites : Obligations.InputWrites := by
  refine ⟨fun s k => ?write, by decide, by decide⟩
  case write =>
    exact ⟨s.writeInput k, hostOp_writeInput k s, s.reg_setReg_same 15 k.code, fun _ hr => s.reg_setReg_ne k.code hr,
      s.setReg_sameFlags 15 k.code, s.setReg_sameButRegsFlags 15 k.code⟩

end Sys2Proof.Machine

/-! PROOFS. Runs of steps (40_engine.md R95) and the scheduler that counts them (70_reset_and_hazards.md R145 to R147). A
run that comes back to its state stays there, and a run over zero memory is one NOP after another. The scheduler's steps
are a run of the block, counted while H = 0. -/

namespace Sys2Proof.Machine

section
variable {s : State}

@[simp] theorem core_run_zero (s : State) : Host.Core.run Sys2Proof.core 0 s = .next s := rfl

/-- A state that steps to itself is where every run from it is. -/
theorem core_run_of_step_eq (h : step s = .next s) (n : Nat) : Host.Core.run Sys2Proof.core n s = .next s := by
  induction n with
  | zero => exact core_run_zero s
  | succ n ih => exact (core_run_succ h).trans ih

/-- A fetched jump to pc, whatever its ignored nibble, is that jump (30_encoding.md R62). -/
theorem decode_fetchWord_of_jump_to_pc {j : RegIdx} (h : s.fetchWord.toNat = 0x8000 + j.toNat * 256 + s.pc.toNat) :
    decode s.fetchWord = .jmp s.pc := by
  obtain ⟨p, q, hpq⟩ := exists_byte_nibbles s.pc
  calc decode s.fetchWord
    _ = decode (BitVec.ofNat 16 s.fetchWord.toNat) := by rw [BitVec.ofNat_toNat, BitVec.setWidth_eq]
    _ = decode (BitVec.ofNat 16 (0x8000 + j.toNat * 256 + s.pc.toNat)) := by rw [h]
    _ = .jmp s.pc := by rw [hpq]; exact decode_ofNat_byte .jmp j p q

/-- A jump to pc undoes the advance (43_control.md R109). -/
theorem step_of_jump_to_pc (hh : s.h = false) (hd : decode s.fetchWord = .jmp s.pc) : step s = .next s := by
  rw [step_of_running hh, hd, exec_jmp]
  rfl

/-- Settles O34: the step is a jump to pc, so it answers the state itself. -/
theorem jumpToItselfForever : Obligations.JumpToItselfForever := fun _ _ n hh hword =>
  core_run_of_step_eq (step_of_jump_to_pc hh (decode_fetchWord_of_jump_to_pc hword)) n

/-! Zero memory. -/

/-- Where memory reads 0 everywhere, the word 0 is fetched (20_memory.md R51). -/
theorem State.fetchWord_of_zero_memory (hzero : ∀ a, a < 256 → s.mem.read a = 0) : s.fetchWord = 0 := by
  apply BitVec.eq_of_toNat_eq
  rw [s.fetchWord_toNat, hzero _ (Nat.mod_lt _ (by decide)), hzero _ (Nat.mod_lt _ (by decide))]
  rfl

/-- Where memory reads 0 everywhere, a step is the advance of a NOP (20_memory.md R51). -/
theorem step_of_zero_memory (hh : s.h = false) (hzero : ∀ a, a < 256 → s.mem.read a = 0) :
    step s = .next s.advancePc := by
  have hnop : decode s.fetchWord = .nop := by rw [s.fetchWord_of_zero_memory hzero]; exact decode_nibbles .nop 0 0 0
  rw [step_of_running hh, hnop, exec_nop]

end

/-- Settles O35: each step advances pc by 2 and leaves memory, so that the next one is a NOP again. -/
theorem zeroMemoryRunsOn : Obligations.ZeroMemoryRunsOn := by
  intro s n hh hzero
  induction n generalizing s with
  | zero =>
    rw [core_run_zero, Nat.mul_zero, Nat.add_zero, Nat.mod_eq_of_lt s.pc.isLt, BitVec.ofNat_toNat, BitVec.setWidth_eq]
  | succ n ih =>
    have hpc : (s.advancePc.pc.toNat + 2 * n) % 256 = (s.pc.toNat + 2 * (n + 1)) % 256 := by
      rw [s.advancePc_pc_toNat]
      omega
    rw [core_run_succ (step_of_zero_memory hh hzero), ih s.advancePc hh hzero, hpc]
    rfl

/-! The scheduler. -/

/-- What the scheduler's steps from k to k' are: m steps of the block, each performed while H = 0 and counted. -/
structure Scheduler.Counted (m : Nat) (k k' : Scheduler) : Prop where
  cycles : k'.cycles = k.cycles + m
  last : k'.last = k.last
  run : Host.Core.run Sys2Proof.core m k.block = .next k'.block
  running : ∀ j, j < m → ∃ u, Host.Core.run Sys2Proof.core j k.block = .next u ∧ u.h = false

theorem Scheduler.Counted.refl (k : Scheduler) : Scheduler.Counted 0 k k := ⟨rfl, rfl, rfl, nofun⟩

/-- A counted step before counted steps is one more of them. -/
theorem Scheduler.Counted.succ {k k' : Scheduler} {t : State} {m : Nat} (hh : k.block.h = false)
    (ht : Machine.step k.block = .next t) (h : Scheduler.Counted m { k with block := t, cycles := k.cycles + 1 } k') :
    Scheduler.Counted (m + 1) k k' where
  cycles := h.cycles.trans (Nat.add_right_comm k.cycles 1 m)
  last := h.last
  run := (core_run_succ ht).trans h.run
  running j hj := by
    cases j with
    | zero => exact ⟨k.block, rfl, hh⟩
    | succ j =>
      obtain ⟨u, hu, huh⟩ := h.running j (Nat.lt_of_succ_lt_succ hj)
      exact ⟨u, (core_run_succ ht).trans hu, huh⟩

/-- Up to no steps are none. -/
@[simp] theorem Scheduler.steps_zero (k : Scheduler) : Scheduler.steps 0 k = .next k := rfl

/-- A halted block takes none of the steps (70_reset_and_hazards.md R145). -/
theorem Scheduler.steps_of_halted {k : Scheduler} (hh : k.block.h = true) (n : Nat) : Scheduler.steps n k = .next k := by
  cases n with
  | zero => rfl
  | succ n => exact if_pos hh

/-- A running block takes one step, which is counted, and then the others (70_reset_and_hazards.md R145, R147). -/
theorem Scheduler.steps_succ_of_running {k : Scheduler} {t : State} (hh : k.block.h = false)
    (ht : Machine.step k.block = .next t) (n : Nat) :
    Scheduler.steps (n + 1) k = Scheduler.steps n { k with block := t, cycles := k.cycles + 1 } := by
  have hstep := Scheduler.step_of_next ht
  simp only [hh, Bool.false_eq_true, if_false] at hstep
  simp only [Scheduler.steps, hh, hstep, Bool.false_eq_true, if_false]

/-- Up to n steps are m counted steps, all n of them unless the block halts, and none if it was halted. -/
theorem Scheduler.steps_counted (n : Nat) (k : Scheduler) :
    ∃ k' m, Scheduler.steps n k = .next k' ∧ m ≤ n ∧ Scheduler.Counted m k k' ∧ (k'.block.h = false → m = n) ∧
      (k.block.h = true → m = 0 ∧ k' = k) := by
  induction n generalizing k with
  | zero => exact ⟨k, 0, Scheduler.steps_zero k, le_refl 0, .refl k, fun _ => rfl, fun _ => ⟨rfl, rfl⟩⟩
  | succ n ih =>
    cases hh : k.block.h with
    | true =>
      exact ⟨k, 0, Scheduler.steps_of_halted hh _, Nat.zero_le _, .refl k, fun h => Bool.noConfusion (hh.symm.trans h),
        fun _ => ⟨rfl, rfl⟩⟩
    | false =>
      obtain ⟨t, ht⟩ := step_safe k.block
      obtain ⟨k', m, hsteps, hm, hcounted, hall, -⟩ := ih { k with block := t, cycles := k.cycles + 1 }
      exact ⟨k', m + 1, (Scheduler.steps_succ_of_running hh ht n).trans hsteps, Nat.succ_le_succ hm,
        hcounted.succ hh ht, fun h => congrArg Nat.succ (hall h), nofun⟩

/-- Settles O44: the counted steps, clause by clause. -/
theorem cyclesCountRunningSteps : Obligations.CyclesCountRunningSteps := by
  intro n k
  obtain ⟨k', m, hsteps, hm, ⟨hcycles, hlast, hrun, hrunning⟩, hall, hnone⟩ := Scheduler.steps_counted n k
  exact ⟨k', m, hsteps, hm, hcycles, hlast, hrun, hrunning, hall, hnone⟩

/-- The due steps are the whole periods in the elapsed time (70_reset_and_hazards.md R145). -/
theorem Scheduler.due_eq (f elapsed : Rat) : Scheduler.due f elapsed = ⌊elapsed / (1 / f)⌋.toNat := rfl

/-- After exactly n periods, n steps are due. -/
theorem Scheduler.due_of_periods {f : Rat} (hf : 0 < f) (n : Nat) : Scheduler.due f (n / f) = n := by
  have hperiods : (n : Rat) / f / (1 / f) = n := by field_simp
  rw [Scheduler.due_eq, hperiods, Int.floor_natCast, Int.toNat_natCast]

/-- A tick runs the due steps and then advances the timestamp by their periods (70_reset_and_hazards.md R145, R146). -/
theorem Scheduler.tick_of_steps {f now : Rat} {k k' : Scheduler}
    (h : Scheduler.steps (Scheduler.due f (now - k.last)) k = .next k') :
    Scheduler.tick f now k = .next { k' with last := k.last + (Scheduler.due f (now - k.last) : Rat) * (1 / f) } := by
  simp only [Scheduler.tick, h]

/-- Settles O45: a tick's block and count are those of its due steps, and n periods end at the time now. -/
theorem schedulerTimestamp : Obligations.SchedulerTimestamp := by
  intro f now k hf
  obtain ⟨k', m, hsteps, -, hcounted, hall, -⟩ := Scheduler.steps_counted (Scheduler.due f (now - k.last)) k
  refine ⟨_, Scheduler.tick_of_steps hsteps, rfl, fun n hn => ⟨?now, fun hh => ?count⟩⟩
  case now =>
    calc k.last + (Scheduler.due f (now - k.last) : Rat) * (1 / f)
      _ = k.last + n * (1 / f) := by rw [hn, Scheduler.due_of_periods hf]
      _ = k.last + (now - k.last) := by rw [hn, mul_one_div]
      _ = now := add_sub_cancel _ _
  case count =>
    obtain rfl : m = n := by rw [hall hh, hn, Scheduler.due_of_periods hf]
    exact ⟨hcounted.run, hcounted.cycles⟩

end Sys2Proof.Machine

/-! PROOFS. Operands as written (30_encoding.md R76, R80). Each field is read exactly from the operand that writes it, each
shape of operands exactly from the list that writes it, and so each instruction from its own operands. -/

namespace Sys2Proof

section
variable {p : Operand} {ops : List Operand} {i j : Instr} {a : RegIdx} {v : Byte}

/-- A register field is read from a register of its index, and from no other operand. -/
theorem Operand.regField_eq_ok : p.regField = .ok a ↔ p = .reg a.toNat := by
  cases p with
  | value n => simp [Operand.regField]
  | reg n =>
    by_cases hn : n < 16
    · simp [Operand.regField, hn, ← BitVec.toNat_inj, Nat.mod_eq_of_lt hn]
    · have hne : n ≠ a.toNat := fun h => hn (h ▸ a.isLt)
      simp [Operand.regField, hn, hne]

/-- A byte field is read from a value of its number, and from no other operand: none is truncated (30_encoding.md R80). -/
theorem Operand.valueField_eq_ok : p.valueField = .ok v ↔ p = .value v.toNat := by
  cases p with
  | reg n => simp [Operand.valueField]
  | value n =>
    by_cases hn : n < 256
    · simp [Operand.valueField, hn, ← BitVec.toNat_inj, Nat.mod_eq_of_lt hn]
    · have hne : n ≠ v.toNat := fun h => hn (h ▸ v.isLt)
      simp [Operand.valueField, hn, hne]

@[simp] theorem Operand.regField_reg (a : RegIdx) : (Operand.reg a.toNat).regField = .ok a := regField_eq_ok.mpr rfl

@[simp] theorem Operand.valueField_value (v : Byte) : (Operand.value v.toNat).valueField = .ok v :=
  valueField_eq_ok.mpr rfl

/-! What each shape of operands accepts. -/

theorem Operand.of_asNone (h : Operand.asNone j ops = .ok i) : ops = [] ∧ i = j := by
  unfold Operand.asNone at h
  split at h
  · exact ⟨rfl, (Except.ok.inj h).symm⟩
  · cases h

theorem Operand.of_asReg {mk : RegIdx → Instr} (h : Operand.asReg mk ops = .ok i) :
    ∃ a, ops = [.reg a.toNat] ∧ i = mk a := by
  unfold Operand.asReg at h
  split at h
  · split at h
    · next a ha =>
      obtain rfl := Operand.regField_eq_ok.mp ha
      exact ⟨a, rfl, (Except.ok.inj h).symm⟩
    · cases h
  · cases h

theorem Operand.of_asValue {mk : Byte → Instr} (h : Operand.asValue mk ops = .ok i) :
    ∃ v, ops = [.value v.toNat] ∧ i = mk v := by
  unfold Operand.asValue at h
  split at h
  · split at h
    · next v hv =>
      obtain rfl := Operand.valueField_eq_ok.mp hv
      exact ⟨v, rfl, (Except.ok.inj h).symm⟩
    · cases h
  · cases h

theorem Operand.of_asRegReg {mk : RegIdx → RegIdx → Instr} (h : Operand.asRegReg mk ops = .ok i) :
    ∃ a b, ops = [.reg a.toNat, .reg b.toNat] ∧ i = mk a b := by
  unfold Operand.asRegReg at h
  split at h
  · split at h
    · next a b ha hb =>
      obtain rfl := Operand.regField_eq_ok.mp ha
      obtain rfl := Operand.regField_eq_ok.mp hb
      exact ⟨a, b, rfl, (Except.ok.inj h).symm⟩
    · cases h
    · cases h
  · cases h

theorem Operand.of_asRegValue {mk : RegIdx → Byte → Instr} (h : Operand.asRegValue mk ops = .ok i) :
    ∃ a v, ops = [.reg a.toNat, .value v.toNat] ∧ i = mk a v := by
  unfold Operand.asRegValue at h
  split at h
  · split at h
    · next a v ha hv =>
      obtain rfl := Operand.regField_eq_ok.mp ha
      obtain rfl := Operand.valueField_eq_ok.mp hv
      exact ⟨a, v, rfl, (Except.ok.inj h).symm⟩
    · cases h
    · cases h
  · cases h

theorem Operand.of_asRegRegReg {mk : RegIdx → RegIdx → RegIdx → Instr} (h : Operand.asRegRegReg mk ops = .ok i) :
    ∃ a b c, ops = [.reg a.toNat, .reg b.toNat, .reg c.toNat] ∧ i = mk a b c := by
  unfold Operand.asRegRegReg at h
  split at h
  · split at h
    · next a b c ha hb hc =>
      obtain rfl := Operand.regField_eq_ok.mp ha
      obtain rfl := Operand.regField_eq_ok.mp hb
      obtain rfl := Operand.regField_eq_ok.mp hc
      exact ⟨a, b, c, rfl, (Except.ok.inj h).symm⟩
    · cases h
    · cases h
    · cases h
  · cases h

end

/-- What is built has the opcode and the operands it was built from: nothing is truncated. -/
theorem operands_of_build {o : Opcode} {ops : List Operand} {i : Instr} (h : o.build ops = .ok i) :
    i.opcode = o ∧ i.operands = ops := by
  cases o with
  | nop | hlt =>
    obtain ⟨rfl, rfl⟩ := Operand.of_asNone h
    exact ⟨rfl, rfl⟩
  | add | sub | and | or | xor | nor =>
    obtain ⟨a, b, c, rfl, rfl⟩ := Operand.of_asRegRegReg h
    exact ⟨rfl, rfl⟩
  | jmp | brz =>
    obtain ⟨v, rfl, rfl⟩ := Operand.of_asValue h
    exact ⟨rfl, rfl⟩
  | rsh | lsh | plt =>
    obtain ⟨a, b, rfl, rfl⟩ := Operand.of_asRegReg h
    exact ⟨rfl, rfl⟩
  | ldi | adi =>
    obtain ⟨a, v, rfl, rfl⟩ := Operand.of_asRegValue h
    exact ⟨rfl, rfl⟩
  | seg =>
    obtain ⟨a, rfl, rfl⟩ := Operand.of_asReg h
    exact ⟨rfl, rfl⟩

/-- Every instruction is built from its own operands. -/
theorem build_operands (i : Instr) : i.opcode.build i.operands = .ok i := by
  cases i with
  | nop | hlt => rfl
  | add | sub | and | or | xor | nor =>
    simp only [Instr.opcode, Instr.operands, Opcode.build, Operand.asRegRegReg, Operand.regField_reg]
  | jmp | brz => simp only [Instr.opcode, Instr.operands, Opcode.build, Operand.asValue, Operand.valueField_value]
  | rsh | lsh | plt =>
    simp only [Instr.opcode, Instr.operands, Opcode.build, Operand.asRegReg, Operand.regField_reg]
  | ldi | adi =>
    simp only [Instr.opcode, Instr.operands, Opcode.build, Operand.asRegValue, Operand.regField_reg,
      Operand.valueField_value]
  | seg => simp only [Instr.opcode, Instr.operands, Opcode.build, Operand.asReg, Operand.regField_reg]

/-- Settles O46: what is built has its own operands, and every instruction is built from them. -/
theorem buildIffOperands : Obligations.BuildIffOperands := by
  intro o ops i
  refine ⟨operands_of_build, ?_⟩
  rintro ⟨rfl, rfl⟩
  exact build_operands i

end Sys2Proof

/-! PROOFS. The assembler (30_encoding.md R77 to R82). Pass 1 keeps its address counter even and inside memory, so labels
lie there and the text is not too long; the bytes of the instructions decode to them, alone and fetched from memory. -/

namespace Sys2Proof.Machine

/-! Pass 1. -/

/-- What a successful label part leaves: the table as it was, or with one label at the counter, which is inside memory. -/
theorem bindLabel_ok {syms syms' : Symbols} {counter : Nat} {l : Option Name}
    (h : bindLabel syms counter l = .ok syms') :
    syms' = syms ∨ ∃ n, syms' = syms ++ [(n, counter)] ∧ counter < 256 := by
  cases l with
  | none => exact .inl (Except.ok.inj h).symm
  | some n =>
    simp only [bindLabel] at h
    split at h
    · cases h
    split at h
    · cases h
    split at h
    · cases h
    next hcounter => exact .inr ⟨n, (Except.ok.inj h).symm, Nat.lt_of_not_le hcounter⟩

/-- What a successful pass 1 did on its first line: it bound the label, and either there was no instruction, or there was
room for one (30_encoding.md R77, R80). -/
theorem pass1_cons_ok {n counter : Nat} {ln : SourceLine} {rest : List (Nat × SourceLine)} {syms out : Symbols}
    {pend : List PendingLine} (h : pass1 ((n, ln) :: rest) counter syms = .ok (out, pend)) :
    ∃ syms', bindLabel syms counter ln.label = .ok syms' ∧
      (pass1 rest counter syms' = .ok (out, pend) ∨
        ∃ p pend', counter + 2 ≤ 256 ∧ pass1 rest (counter + 2) syms' = .ok (out, pend') ∧ pend = p :: pend') := by
  unfold pass1 at h
  split at h
  · cases h
  next syms' hbind =>
  refine ⟨syms', hbind, ?_⟩
  split at h
  · exact .inl h
  split at h
  · cases h
  next hroom =>
  split at h
  · cases h
  next out' pend' hrest =>
  cases h
  exact .inr ⟨_, pend', Nat.le_of_not_lt hroom, hrest, rfl⟩

/-- A symbol table is inside memory: every label has an even address below 256 (20_memory.md R42). -/
def Symbols.Inside (syms : Symbols) : Prop := ∀ p ∈ syms, p.2 % 2 = 0 ∧ p.2 < 256

/-- A label part keeps the table inside memory when the counter is even. -/
theorem Symbols.Inside.bindLabel {syms syms' : Symbols} {counter : Nat} {l : Option Name} (hs : Symbols.Inside syms)
    (heven : counter % 2 = 0) (h : Machine.bindLabel syms counter l = .ok syms') : Symbols.Inside syms' := by
  obtain rfl | ⟨n, rfl, hlt⟩ := bindLabel_ok h
  · exact hs
  · exact List.forall_mem_append.mpr ⟨hs, List.forall_mem_singleton.mpr ⟨heven, hlt⟩⟩

/-- Pass 1 keeps the table inside memory, from an even counter on: an instruction takes two bytes. -/
theorem Symbols.Inside.pass1 {lines : List (Nat × SourceLine)} {counter : Nat} {syms out : Symbols}
    {pend : List PendingLine} (hs : Symbols.Inside syms) (heven : counter % 2 = 0)
    (h : Machine.pass1 lines counter syms = .ok (out, pend)) : Symbols.Inside out := by
  induction lines generalizing counter syms pend with
  | nil =>
    cases h
    exact hs
  | cons line rest ih =>
    obtain ⟨syms', hbind, hrest | ⟨-, pend', -, hrest, -⟩⟩ := pass1_cons_ok h
    · exact ih (hs.bindLabel heven hbind) heven hrest
    · exact ih (hs.bindLabel heven hbind) (by omega) hrest

/-- Settles O47: the counter starts at 0, with no label bound. -/
theorem labelsResolveInsideMemory : Obligations.LabelsResolveInsideMemory := by
  intro text syms pend h
  have hnone : Symbols.Inside [] := nofun
  exact hnone.pass1 rfl h

/-- Pass 1 leaves no more instruction lines than memory has room for above its counter (30_encoding.md R80). -/
theorem pass1_room {lines : List (Nat × SourceLine)} {counter : Nat} {syms out : Symbols} {pend : List PendingLine}
    (hcounter : counter ≤ 256) (h : pass1 lines counter syms = .ok (out, pend)) : counter + 2 * pend.length ≤ 256 := by
  induction lines generalizing counter syms pend with
  | nil =>
    cases h
    exact hcounter
  | cons line rest ih =>
    obtain ⟨syms', -, hrest | ⟨p, pend', hroom, hrest, rfl⟩⟩ := pass1_cons_ok h
    · exact ih hcounter hrest
    · have hbound := ih hroom hrest
      rw [List.length_cons]
      omega

/-! Pass 2 and the bytes. -/

/-- Pass 2 makes one instruction of each line (30_encoding.md R78). -/
theorem pass2_length {syms : Symbols} {pend : List PendingLine} {is : List Instr} (h : pass2 syms pend = .ok is) :
    is.length = pend.length := by
  induction pend generalizing is with
  | nil =>
    cases h
    rfl
  | cons p ps ih =>
    unfold pass2 at h
    split at h
    · cases h
    split at h
    · cases h
    next is' hrest =>
    cases h
    rw [List.length_cons, List.length_cons, ih hrest]

/-- The instructions of a text take at most the 256 bytes of memory (30_encoding.md R80). -/
theorem assembleInstrs_room {text : List Char} {is : List Instr} (h : assembleInstrs text = .ok is) :
    2 * is.length ≤ 256 := by
  unfold assembleInstrs at h
  split at h
  · cases h
  next syms pend hpass1 =>
  have hroom := pass1_room (Nat.zero_le _) hpass1
  rw [pass2_length h]
  omega

/-- The bytes of a text are those of its instructions (30_encoding.md R82). -/
theorem assemble_ok {text : List Char} {bytes : List Byte} (h : assemble text = .ok bytes) :
    ∃ is, assembleInstrs text = .ok is ∧ bytes = is.flatMap encodeBytes := by
  unfold assemble at h
  split at h
  · cases h
  next is his => exact ⟨is, his, (Except.ok.inj h).symm⟩

/-- The bytes of instructions, two at a time (30_encoding.md R82). -/
theorem flatMap_encodeBytes_cons (i : Instr) (is : List Instr) :
    (i :: is).flatMap encodeBytes = (encode i).byte1 :: (encode i).byte2 :: is.flatMap encodeBytes := rfl

theorem length_flatMap_encodeBytes (is : List Instr) : (is.flatMap encodeBytes).length = 2 * is.length := by
  induction is with
  | nil => rfl
  | cons i is ih =>
    rw [flatMap_encodeBytes_cons, List.length_cons, List.length_cons, List.length_cons, ih]
    omega

/-- Decoding the bytes of instructions gives the instructions back, in order. -/
theorem decodeAll_flatMap_encodeBytes (is : List Instr) : decodeAll (is.flatMap encodeBytes) = .ok is := by
  induction is with
  | nil => rfl
  | cons i is ih => simp only [flatMap_encodeBytes_cons, decodeAll, ih, wordOfBytes_bytes, decode_encode]

/-- Settles O48: the bytes are those of the instructions, of which there is room for all. -/
theorem assemblerOutput : Obligations.AssemblerOutput := by
  intro text bytes h
  obtain ⟨is, his, rfl⟩ := assemble_ok h
  have hlen := length_flatMap_encodeBytes is
  exact ⟨is, his, decodeAll_flatMap_encodeBytes is, hlen, hlen.trans_le (assembleInstrs_room his)⟩

/-! The loaded text. -/

/-- The two bytes of the k-th instruction stand at 2k and 2k + 1. -/
theorem getD_flatMap_encodeBytes {is : List Instr} {k : Nat} {i : Instr} (hk : is[k]? = some i) (d e : Byte) :
    (is.flatMap encodeBytes).getD (2 * k) d = (encode i).byte1 ∧
      (is.flatMap encodeBytes).getD (2 * k + 1) e = (encode i).byte2 := by
  induction is generalizing k with
  | nil => cases hk
  | cons j is ih =>
    cases k with
    | zero =>
      obtain rfl := Option.some.inj hk
      exact ⟨rfl, rfl⟩
    | succ k => exact ih hk

/-- Two bytes read at an address below 256 and after it, with pc there, are fetched as their word. -/
theorem State.fetchWord_setPc_of_reads {t : State} {a : Nat} {w : Word} (ha : a < 256)
    (h1 : t.mem.read a = Word.byte1 w) (h2 : t.mem.read (a + 1) = Word.byte2 w) :
    ({ t with pc := BitVec.ofNat 8 a } : State).fetchWord = w := by
  have hpc : (BitVec.ofNat 8 a).toNat = a := Nat.mod_eq_of_lt ha
  rw [State.fetchWord, hpc, h1, h2, wordOfBytes_bytes]

/-- Settles O49: a text that fits is loaded from address 0 on, so its k-th word is fetched at 2k. -/
theorem assembledTextIsFetched : Obligations.AssembledTextIsFetched := by
  intro text bytes s hs h
  obtain ⟨is, his, rfl⟩ := assemble_ok h
  refine ⟨is, _, his, hostOp_load _ s, fun k i hk => ?_⟩
  have hlen := length_flatMap_encodeBytes is
  have hroom := assembleInstrs_room his
  obtain ⟨hkis, -⟩ := List.getElem?_eq_some_iff.mp hk
  have hread (a : Nat) (ha : a < 256) :
      (s.load (is.flatMap encodeBytes)).mem.read a = (is.flatMap encodeBytes).getD a (s.mem.read a) := by
    obtain ⟨-, t, ht, -, hbytes, -⟩ := (loadBytes s _ hs).1 (hlen.trans_le hroom)
    obtain rfl := Host.Outcome.next.inj ((hostOp_load _ s).symm.trans ht)
    exact hbytes a ha
  obtain ⟨hbyte1, hbyte2⟩ := getD_flatMap_encodeBytes hk (s.mem.read (2 * k)) (s.mem.read (2 * k + 1))
  have hfetch := State.fetchWord_setPc_of_reads (t := s.load (is.flatMap encodeBytes)) (a := 2 * k) (w := encode i)
    (by omega) ((hread _ (by omega)).trans hbyte1) ((hread _ (by omega)).trans hbyte2)
  rw [hfetch, decode_encode]

end Sys2Proof.Machine
